-- ==== Sys2Proof/Word.lean ====
section
/-! DEFINITION. The word types of SCCA8 (spec/00_scope.md R5, R9): every datum is an unsigned byte,
the program counter has 9 bits, the flags register 3. -/

namespace Sys2Proof

/-- A register, a memory cell, an operand byte or an ALU value (R5, R9). -/
abbrev Byte := BitVec 8

/-- The program counter, and the `fault_pc` and `fault_info` ports (R7, R24). -/
abbrev PcWord := BitVec 9

/-- The flags register `FL`: bit 0 is E, bit 1 is G, bit 2 is L (R27). -/
abbrev FlagWord := BitVec 3

/-- The index of a general register, 0 to 7 (R20). -/
abbrev Reg := Fin 8

/-- `zext_9` (R9): the only widening of SCCA8. -/
abbrev zext9 (b : Byte) : PcWord := b.setWidth 9

/-- A register index as the operand byte that names it (R63). -/
abbrev regByte (r : Reg) : Byte := BitVec.ofNat 8 r

end Sys2Proof
end

