-- ==== Sys2Proof/Config.lean ====
section
/-! DEFINITION. What an implementation of SCCA8 fixes: the two open parameters of spec/00_scope.md R6.
`OPCODE_MAP` is any assignment of bytes to the 17 mnemonics with the three properties of
spec/30_encoding.md R64; `NOT_SEMANTICS` is one of two names. The default values are in Decode.lean. -/

namespace Sys2Proof

/-- The 17 mnemonics of the opcode map (R64), in the order of spec/opcode_table.json. -/
inductive Mnemonic where
  | hlt | ret | push | pop | prn | call | jmp | jeq | jne | not | ldi | add | mul | cmp | and | or | xor
  deriving DecidableEq, Repr

/-- All 17 rows of R64. -/
def Mnemonic.all : List Mnemonic :=
  [.hlt, .ret, .push, .pop, .prn, .call, .jmp, .jeq, .jne, .not, .ldi, .add, .mul, .cmp, .and, .or, .xor]

/-- The operand count of R62, which a legal opcode carries in its bits [7:6]. -/
def Mnemonic.operandCount : Mnemonic → Nat
  | .hlt | .ret => 0
  | .push | .pop | .prn | .call | .jmp | .jeq | .jne | .not => 1
  | .ldi | .add | .mul | .cmp | .and | .or | .xor => 2

/-- One byte value for each mnemonic: the data of an `OPCODE_MAP` (R6). -/
structure OpcodeBytes where
  hlt : Byte
  ret : Byte
  push : Byte
  pop : Byte
  prn : Byte
  call : Byte
  jmp : Byte
  jeq : Byte
  jne : Byte
  not : Byte
  ldi : Byte
  add : Byte
  mul : Byte
  cmp : Byte
  and : Byte
  or : Byte
  xor : Byte
  deriving DecidableEq, Repr

/-- The byte that selects an instruction. -/
def OpcodeBytes.byteOf (m : OpcodeBytes) : Mnemonic → Byte
  | .hlt => m.hlt
  | .ret => m.ret
  | .push => m.push
  | .pop => m.pop
  | .prn => m.prn
  | .call => m.call
  | .jmp => m.jmp
  | .jeq => m.jeq
  | .jne => m.jne
  | .not => m.not
  | .ldi => m.ldi
  | .add => m.add
  | .mul => m.mul
  | .cmp => m.cmp
  | .and => m.and
  | .or => m.or
  | .xor => m.xor

/-- The properties R64 asks of any `OPCODE_MAP`: it is injective, and each value's bits [7:6] equal
the operand count of R62 (so none of them is 11, since the counts are 0, 1 and 2). -/
abbrev OpcodeBytes.Legal (m : OpcodeBytes) : Prop :=
  (Mnemonic.all.map m.byteOf).Nodup ∧
    ∀ k ∈ Mnemonic.all, (m.byteOf k).toNat / 64 = k.operandCount

/-- The parameter `OPCODE_MAP` (R6): bytes together with the check of R64. -/
structure OpcodeMap where
  bytes : OpcodeBytes
  legal : bytes.Legal
  deriving DecidableEq, Repr

/-- The parameter `NOT_SEMANTICS` (R6, R116). -/
inductive NotSemantics where
  | referenceInequality
  | onesComplement
  deriving DecidableEq, Repr

/-- The open parameters that R6 says a model takes as arguments. -/
structure Config where
  opcodes : OpcodeMap
  notSemantics : NotSemantics
  deriving DecidableEq, Repr

end Sys2Proof
end

