-- ==== Sys2Proof/Syntax.lean ====
section
/-! DEFINITION. The instructions of SCCA8, one constructor for each row of spec/opcode_table.json
(spec/30_encoding.md R62, R64). A register operand is the whole operand byte (R63): whether it names a
register is checked by WellFormed and by the machine, not by the type. -/

namespace Sys2Proof

/-- The 17 instructions with their operand bytes. NOT is encoded with one operand byte (R62); the
second register it may read is the byte after it in memory, no part of the instruction (R116). -/
inductive Instr where
  | hlt
  | ret
  | push (rA : Byte)
  | pop (rA : Byte)
  | prn (rA : Byte)
  | call (rA : Byte)
  | jmp (rA : Byte)
  | jeq (rA : Byte)
  | jne (rA : Byte)
  | not (rA : Byte)
  | ldi (rA imm8 : Byte)
  | add (rA rB : Byte)
  | mul (rA rB : Byte)
  | cmp (rA rB : Byte)
  | and (rA rB : Byte)
  | or (rA rB : Byte)
  | xor (rA rB : Byte)
  deriving DecidableEq, Repr

/-- The row of R64 an instruction belongs to. -/
def Instr.mnemonic : Instr → Mnemonic
  | .hlt => .hlt
  | .ret => .ret
  | .push _ => .push
  | .pop _ => .pop
  | .prn _ => .prn
  | .call _ => .call
  | .jmp _ => .jmp
  | .jeq _ => .jeq
  | .jne _ => .jne
  | .not _ => .not
  | .ldi _ _ => .ldi
  | .add _ _ => .add
  | .mul _ _ => .mul
  | .cmp _ _ => .cmp
  | .and _ _ => .and
  | .or _ _ => .or
  | .xor _ _ => .xor

/-- The operand bytes that follow the opcode, in address order (R60, R62). -/
def Instr.operands : Instr → List Byte
  | .hlt | .ret => []
  | .push a | .pop a | .prn a | .call a | .jmp a | .jeq a | .jne a | .not a => [a]
  | .ldi a b | .add a b | .mul a b | .cmp a b | .and a b | .or a b | .xor a b => [a, b]

/-- The operand bytes that R62 marks as registers, in the order R83 checks them. -/
def Instr.registerOperands : Instr → List Byte
  | .hlt | .ret => []
  | .push a | .pop a | .prn a | .call a | .jmp a | .jeq a | .jne a | .not a | .ldi a _ => [a]
  | .add a b | .mul a b | .cmp a b | .and a b | .or a b | .xor a b => [a, b]

end Sys2Proof
end

