-- ==== Sys2Proof/WellFormed.lean ====
section
/-! DEFINITION. Which instructions name registers that exist (spec/30_encoding.md R63). An ill-formed
instruction can be encoded and decoded; executing it raises OutOfBounds(register, byte) (R83). -/

namespace Sys2Proof

/-- Every register operand is 0 to 7 (R63). -/
def Instr.wellFormed (i : Instr) : Bool :=
  i.registerOperands.all fun b => decide (b.toNat < 8)

end Sys2Proof
end

