-- ==== Sys2Proof/Decode.lean ====
section
/-! DEFINITION. The default parameters, the decoder and the encoder (spec/30_encoding.md R60 to R67).
The decoder reads the three bytes every step fetches (spec/40_dispatch.md R81) and is total: a byte
outside the opcode map is rejected by name. -/

namespace Sys2Proof

/-- The byte values of R64: the spec's default `OPCODE_MAP`. PRESUMED by the spec itself (its D1, "from
general knowledge, not in source"; log 2). -/
def OpcodeBytes.ls8 : OpcodeBytes :=
  { hlt := 0x01, ret := 0x11, push := 0x45, pop := 0x46, prn := 0x47, call := 0x50, jmp := 0x54,
    jeq := 0x55, jne := 0x56, not := 0x69, ldi := 0x82, add := 0xA0, mul := 0xA2, cmp := 0xA7,
    and := 0xA8, or := 0xAA, xor := 0xAB }

/-- The default `OPCODE_MAP` (R6, R64). -/
def OpcodeMap.ls8 : OpcodeMap := { bytes := OpcodeBytes.ls8, legal := by decide }

/-- The defaults of R6 (log 2, log 3). -/
def Config.default : Config :=
  { opcodes := OpcodeMap.ls8, notSemantics := .referenceInequality }

/-- The opcode byte of a mnemonic under a map. -/
def OpcodeMap.byteOf (m : OpcodeMap) (k : Mnemonic) : Byte := m.bytes.byteOf k

/-- Decoding an opcode byte (R65): all 8 bits are compared with the rows of the map. -/
def OpcodeMap.mnemonicOf (m : OpcodeMap) (op : Byte) : Option Mnemonic :=
  Mnemonic.all.find? fun k => decide (m.byteOf k = op)

/-- `opcode[7:6]`, the operand count an opcode byte carries (R60, R61). -/
def operandField (op : Byte) : Nat := (op >>> 6).toNat

/-- The length in bytes of an instruction, from its opcode byte (R60). -/
def instrLength (op : Byte) : Nat := operandField op + 1

/-- Why bytes are no instruction. -/
inductive DecodeError where
  /-- The opcode byte matches no row of the map (R66). -/
  | illegalOpcode (op : Byte)
  deriving DecidableEq, Repr

/-- The instruction of a row with the operand bytes at `pc+1` and `pc+2`; a row takes the bytes that
R62 gives it and ignores the others. -/
def assemble (k : Mnemonic) (a b : Byte) : Instr :=
  match k with
  | .hlt => .hlt
  | .ret => .ret
  | .push => .push a
  | .pop => .pop a
  | .prn => .prn a
  | .call => .call a
  | .jmp => .jmp a
  | .jeq => .jeq a
  | .jne => .jne a
  | .not => .not a
  | .ldi => .ldi a b
  | .add => .add a b
  | .mul => .mul a b
  | .cmp => .cmp a b
  | .and => .and a b
  | .or => .or a b
  | .xor => .xor a b

/-- The decoder (R65, R82), on the three bytes a step fetches. -/
def decode (m : OpcodeMap) (op a b : Byte) : Except DecodeError Instr :=
  match m.mnemonicOf op with
  | some k => .ok (assemble k a b)
  | none => .error (.illegalOpcode op)

/-- The encoder: the opcode byte, then the operand bytes at ascending addresses (R60, R62). -/
def encode (m : OpcodeMap) (i : Instr) : List Byte := m.byteOf i.mnemonic :: i.operands

/-- Byte `k` of an instruction given as one number, bit 0 being the least significant bit of its first
byte; bits at and above `nbits` are 0. -/
def tableByte (nbits w k : Nat) : Byte := BitVec.ofNat 8 (w % 2 ^ nbits / 256 ^ k)

/-- What the decoder reads, under the default map, from an instruction numbered as
spec/opcode_table.json numbers it. -/
def decodeTableWord (nbits w : Nat) : Option Instr :=
  match decode OpcodeMap.ls8 (tableByte nbits w 0) (tableByte nbits w 1) (tableByte nbits w 2) with
  | .ok i => some i
  | .error _ => none

end Sys2Proof
end

