-- ==== Sys2Proof/Machine/State.lean ====
section
/-! DEFINITION. The state of SCCA8 (spec/10_state.md) and its reset value (R36), the fault record of
spec/60_exceptions.md, and the reasons a step of the model can stop. -/

namespace Sys2Proof.Machine

/-- The run status (R31). -/
inductive RunStatus where
  | idle
  | running
  | halted
  | faulted
  deriving DecidableEq, Repr

/-- The fault kinds of R160, whose numeric codes are `FaultKind.code`. -/
inductive FaultKind where
  /-- Code 1: the opcode byte is not in `OPCODE_MAP` (R82). -/
  | illegalInstruction
  /-- Code 2: a fetch address above 255 (R81). -/
  | outOfBoundsMemory
  /-- Code 3: a register operand byte above 7 (R83). -/
  | outOfBoundsRegister
  /-- Code 4: a push with SP = 0 (R131, R141). -/
  | stackOverflow
  /-- Code 5: a pop with SP = 255, or POP R7 popping 255 (R132, R142). -/
  | stackUnderflow
  /-- Code 6: reserved, never raised (R119). -/
  | unsupportedOperation
  /-- Code 7: the host's Loader's own report, never set by the core (R173). -/
  | loadError
  deriving DecidableEq, Repr

/-- The fault record (R32, R161): the kind, the pc of the faulting step, and the kind's datum. -/
structure FaultRecord where
  kind : FaultKind
  fpc : PcWord
  info : PcWord
  deriving DecidableEq, Repr

/-- Memory as (address, byte) cells, addresses rising; an address that is not listed holds 0, the reset
value of every cell (R35, R36). -/
abbrev Memory := List Host.Cell

/-- The state record of spec/10_state.md. -/
structure State where
  /-- The general registers; `x[7]` is the stack pointer (R20, R21). -/
  x : Vector Byte 8
  /-- The address of the opcode of the instruction being executed (R24). -/
  pc : PcWord
  /-- The flags register FL (R27). -/
  fl : FlagWord
  /-- The 256 memory cells (R35). -/
  mem : Memory
  /-- The run status (R31). -/
  status : RunStatus
  /-- The fault record, none unless FAULTED (R32). -/
  fault : Option FaultRecord
  /-- The bytes PRN has emitted since reset, oldest first (R33). -/
  out : List Byte
  /-- The MODEL's own field: the open parameters of R6, which nothing changes (log 1, DESIGN CHOICE). -/
  cfg : Config
  deriving DecidableEq, Repr

/-- Why a step does not exist (R88). A fault that the SPEC describes is no outcome of this type: it is
taken, as a next state in FAULTED (R161, R162). -/
inductive Fault where
  /-- Raised by `step` in IDLE: only `start` or `reset` leaves it. Safe: the hardware has no step there. -/
  | notStarted
  /-- Raised by `step` in HALTED, which is terminal. Safe: the hardware has no step there. -/
  | alreadyHalted
  /-- Raised by `step` in FAULTED, which is terminal. Safe: the hardware has no step there. -/
  | alreadyFaulted
  deriving DecidableEq, Repr

/-- Why the model has no meaning for an instruction. -/
inductive Refusal where
  /-- Would be raised by `exec` for an instruction without a meaning; every instruction has one, so
  nothing raises it. Safe. -/
  | notModelled (mnemonic : String)
  deriving DecidableEq, Repr

/-- What a step or a meaning answers. -/
abbrev Result := Host.Outcome State Fault Refusal

/-- The state right after `reset` (R36, R180), under the default parameters (R6). -/
def State.reset : State :=
  { x := #v[0, 0, 0, 0, 0, 0, 0, 0xF4]
    pc := 0
    fl := 0b000
    mem := []
    status := .idle
    fault := none
    out := []
    cfg := Config.default }

end Sys2Proof.Machine
end

