-- ==== Sys2Proof/Machine/Ops.lean ====
section
/-! DEFINITION. The named operations over registers, memory, pc, output and the fault record
(spec/00_scope.md R10), which every meaning is written with. -/

namespace Sys2Proof.Machine

/-! Memory (spec/20_memory.md R40, R42) -/

/-- What a cell that nothing has written holds: the reset value (R36). -/
def unlistedByte : Byte := 0

/-- The byte at an address. -/
def Memory.read : Memory → Nat → Byte
  | [], _ => unlistedByte
  | (k, w) :: rest, a => if k = a then w else Memory.read rest a

/-- Puts a cell in front of the first cell with a larger address. -/
def Memory.insert (a : Nat) (v : Byte) : Memory → Memory
  | [] => [(a, v)]
  | (k, w) :: rest => if a < k then (a, v) :: (k, w) :: rest else (k, w) :: Memory.insert a v rest

/-- Memory with no cell for an address. -/
def Memory.erase (m : Memory) (a : Nat) : Memory := m.filter fun c => decide (c.1 ≠ a)

/-- Stores a byte, keeping the canonical form: a cell that would hold the unlisted byte is left out. -/
def Memory.write (m : Memory) (a : Nat) (v : Byte) : Memory :=
  if v = unlistedByte then m.erase a else (m.erase a).insert a v

/-- The canonical form: addresses strictly rising and at most 255 (R35), no cell equal to what an
unlisted address reads as. -/
abbrev Memory.wf (m : Memory) : Prop :=
  m.Pairwise (fun c d => c.1 < d.1) ∧ ∀ c ∈ m, c.1 < 256 ∧ c.2 ≠ unlistedByte

/-! Registers (R20 to R22): every register is readable and writable. -/

/-- `x[i]`. -/
def State.reg (s : State) (r : Reg) : Byte := s.x[r]

/-- `x[i] <- v`. -/
def State.setReg (s : State) (r : Reg) (v : Byte) : State := { s with x := s.x.set r v }

/-- The index of SP (R21). -/
def spReg : Reg := 7

/-- SP, another name for `x[7]` (R21). -/
def State.sp (s : State) : Byte := s.reg spReg

/-- SP decremented, as before a push-style write (R130). -/
def State.decSp (s : State) : State := s.setReg spReg (s.sp - 1)

/-- SP incremented, as after a pop-style read (R130). -/
def State.incSp (s : State) : State := s.setReg spReg (s.sp + 1)

/-! The byte-wide memory port (R40): its address has 8 bits, so it is always in bounds. -/

/-- `MemRead(addr, 1)`. -/
def State.load (s : State) (addr : Byte) : Byte := s.mem.read addr.toNat

/-- `MemWrite(addr, 1, v)`. -/
def State.store (s : State) (addr v : Byte) : State := { s with mem := s.mem.write addr.toNat v }

/-! pc, flags, output, status -/

/-- `pc <- target`. -/
def State.setPc (s : State) (target : PcWord) : State := { s with pc := target }

/-- `FL <- v`. -/
def State.setFl (s : State) (v : FlagWord) : State := { s with fl := v }

/-- `Emit(v)`: the output trace grows by one byte (R102). -/
def State.emit (s : State) (v : Byte) : State := { s with out := s.out ++ [v] }

/-- `status <- HALTED` (R103). -/
def State.halt (s : State) : State := { s with status := .halted }

/-- The sequential advance `pc <- pc + (op >> 6) + 1` (R85), for the opcode byte of the instruction.
The sum is that of the 9-bit `pc`; a step runs only with pc ≤ 253, so nothing wraps there (log 7). -/
def State.advance (s : State) (k : Mnemonic) : State :=
  s.setPc (s.pc + BitVec.ofNat 9 (instrLength (s.cfg.opcodes.byteOf k)))

/-! Taking a fault (R161, R162). No handler exists and nothing returns from a fault (R163). -/

/-- The state after a fault: FAULTED with its record, everything else as before the step. `s` is the
state at the start of the step, so its pc is the address of the faulting opcode. -/
def State.enterFault (s : State) (k : FaultKind) (info : PcWord) : State :=
  { s with status := .faulted, fault := some { kind := k, fpc := s.pc, info := info } }

/-- `raise <Fault>(info)` (R10). -/
def raise (k : FaultKind) (info : PcWord) (s : State) : Result := .next (s.enterFault k info)

/-! Checked reads of memory at a computed address (R41) -/

/-- `MemRead(addr, 1)` at a computed address: above 255 it raises OutOfBounds(memory, addr). -/
def withByte (addr : Nat) (s : State) (k : Byte → Result) : Result :=
  if addr ≤ 255 then k (s.mem.read addr) else raise .outOfBoundsMemory (BitVec.ofNat 9 addr) s

/-- The fetch (R81): the bytes at pc, pc+1 and pc+2, the first address out of range faulting. A read
has no effect (R42), so checking each address just before its read is checking all three first. -/
def fetch (s : State) (k : Byte → Byte → Byte → Result) : Result :=
  withByte s.pc.toNat s fun op =>
    withByte (s.pc.toNat + 1) s fun a => withByte (s.pc.toNat + 2) s fun b => k op a b

/-- A step whose bytes decode to no instruction (R82). -/
def undecodable (e : DecodeError) (s : State) : Result :=
  match e with
  | .illegalOpcode op => raise .illegalInstruction (zext9 op) s

/-- Byte `v` placed at a computed address, if that address exists. -/
def State.placeByte (s : State) (addr : Nat) (v : Byte) : State :=
  if addr ≤ 255 then { s with mem := s.mem.write addr v } else s

/-- An instruction given as a number (spec/opcode_table.json's numbering) placed where the next step
fetches, with the status that lets it run: what the Loader and `start` do for a program (log 5). -/
def State.placeWord (s : State) (nbits w : Nat) : State :=
  let p := s.pc.toNat
  let t := ((s.placeByte p (tableByte nbits w 0)).placeByte (p + 1) (tableByte nbits w 1)).placeByte
    (p + 2) (tableByte nbits w 2)
  { t with status := .running, fault := none }

end Sys2Proof.Machine
end

