-- ==== Sys2Proof/Machine/Flags.lean ====
section
/-! DEFINITION. The flags of SCCA8 (spec/10_state.md R27 to R29): computed by CMP only, tested whole by
JEQ and JNE. -/

namespace Sys2Proof.Machine

/-- FL after a compare that found equal values (R27). -/
def flagEqual : FlagWord := 0b001

/-- FL after a compare whose first value was greater (R27). -/
def flagGreater : FlagWord := 0b010

/-- FL after a compare whose first value was less (R27). -/
def flagLess : FlagWord := 0b100

/-- The flags of CMP (R117): an unsigned comparison, exactly one bit set. -/
def compareFlags (u v : Byte) : FlagWord :=
  if u.toNat = v.toNat then flagEqual else if v.toNat < u.toNat then flagGreater else flagLess

/-- The condition of JEQ (R144), whose negation is that of JNE (R145): the whole of FL is EQUAL. -/
def State.flagsSayEqual (s : State) : Bool := decide (s.fl = flagEqual)

/-- FL as a byte, `0b00000LGE` (R27). -/
def State.flByte (s : State) : Byte := s.fl.setWidth 8

end Sys2Proof.Machine
end

