-- ==== Sys2Proof/Machine/Operands.lean ====
section
/-! DEFINITION. The operand forms of SCCA8 (spec/30_encoding.md R62, R63; spec/40_dispatch.md R83):
a register operand is a whole byte, an immediate is used unchanged, and nothing else is an operand. -/

namespace Sys2Proof.Machine

/-- `regidx(b)` (R10, R83): the byte as a register index, or OutOfBounds(register, b). -/
def withReg (b : Byte) (s : State) (k : Reg → Result) : Result :=
  if h : b.toNat < 8 then k ⟨b.toNat, h⟩ else raise .outOfBoundsRegister (zext9 b) s

/-- Two register operands, `a` checked before `b` (R83, R165). -/
def withRegs (a b : Byte) (s : State) (k : Reg → Reg → Result) : Result :=
  withReg a s fun rA => withReg b s fun rB => k rA rB

/-- Room for a push (R131, R141): StackOverflow(SP) if SP is 0. -/
def withPushRoom (s : State) (k : Result) : Result :=
  if s.sp = 0 then raise .stackOverflow (zext9 s.sp) s else k

/-- The byte a pop reads (R132, R142): StackUnderflow(SP) if SP is 255. -/
def withPopped (s : State) (k : Byte → Result) : Result :=
  if s.sp = 255 then raise .stackUnderflow (zext9 s.sp) s else k (s.load s.sp)

end Sys2Proof.Machine
end

