-- ==== Sys2Proof/Machine/Alu.lean ====
section
/-! DEFINITION. The seven ALU instructions (spec/42_alu.md). Both registers are read before the result
is written (R110). -/

namespace Sys2Proof.Machine

/-- The shape of ADD, MUL, AND, OR and XOR (R110): `x[rA] <- f x[rA] x[rB]`. -/
def aluBinary (k : Mnemonic) (f : Byte → Byte → Byte) (rA rB : Byte) (s : State) : Result :=
  withRegs rA rB s fun a b => .next ((s.setReg a (f (s.reg a) (s.reg b))).advance k)

/-- The exact sum modulo 256 (R111). -/
def aluAdd (u v : Byte) : Byte := BitVec.ofNat 8 (u.toNat + v.toNat)

/-- The exact product modulo 256 (R112). -/
def aluMul (u v : Byte) : Byte := BitVec.ofNat 8 (u.toNat * v.toNat)

/-- ADD (R111). -/
def execAdd (rA rB : Byte) (s : State) : Result := aluBinary .add aluAdd rA rB s

/-- MUL (R112). -/
def execMul (rA rB : Byte) (s : State) : Result := aluBinary .mul aluMul rA rB s

/-- AND (R113). -/
def execAnd (rA rB : Byte) (s : State) : Result := aluBinary .and (fun u v => u &&& v) rA rB s

/-- OR (R114). -/
def execOr (rA rB : Byte) (s : State) : Result := aluBinary .or (fun u v => u ||| v) rA rB s

/-- XOR (R115). -/
def execXor (rA rB : Byte) (s : State) : Result := aluBinary .xor (fun u v => u ^^^ v) rA rB s

/-- NOT under REFERENCE_INEQUALITY (R116): 1 or 0, whether the two values differ. -/
def aluDiffers (u v : Byte) : Byte := if u ≠ v then 1 else 0

/-- NOT (R116), by the parameter `NOT_SEMANTICS`. Its second register, under REFERENCE_INEQUALITY, is
the byte `b` at pc+2 that the step fetched; no write comes between, so it is read here (log 6). -/
def execNot (rA : Byte) (s : State) : Result :=
  match s.cfg.notSemantics with
  | .referenceInequality =>
    withByte (s.pc.toNat + 2) s fun rB => aluBinary .not aluDiffers rA rB s
  | .onesComplement =>
    withReg rA s fun r => .next ((s.setReg r (~~~ s.reg r)).advance .not)

/-- CMP (R117): all of FL is written, no register. -/
def execCmp (rA rB : Byte) (s : State) : Result :=
  withRegs rA rB s fun a b => .next ((s.setFl (compareFlags (s.reg a) (s.reg b))).advance .cmp)

end Sys2Proof.Machine
end

