-- ==== Sys2Proof/Machine/Stack.lean ====
section
/-! DEFINITION. The stack model, PUSH and POP (spec/43_stack.md). -/

namespace Sys2Proof.Machine

/-- The address a push stores to: the decremented SP (R130). PUSH and CALL store there. -/
def State.pushAddr (s : State) : Byte := s.decSp.sp

/-- PUSH (R131): SP is decremented first, so PUSH R7 stores the new SP. -/
def execPush (rA : Byte) (s : State) : Result :=
  withReg rA s fun r =>
    withPushRoom s (.next ((s.decSp.store s.pushAddr (s.decSp.reg r)).advance .push))

/-- POP (R132): the popped byte goes into rA, then SP is incremented, so POP R7 leaves the byte + 1;
POP R7 of the byte 255 would take SP to 256 and raises StackUnderflow(SP). -/
def execPop (rA : Byte) (s : State) : Result :=
  withReg rA s fun r =>
    withPopped s fun v =>
      if r = spReg ∧ v = 255 then raise .stackUnderflow (zext9 s.sp) s
      else .next ((s.setReg r v).incSp.advance .pop)

end Sys2Proof.Machine
end

