-- ==== Sys2Proof/Machine/ControlFlow.lean ====
section
/-! DEFINITION. CALL, RET, JMP, JEQ and JNE (spec/44_control_flow.md): each writes pc itself (R86). -/

namespace Sys2Proof.Machine

/-- The address after a two-byte control-flow instruction (R25, R141, R144): `pc + 2`. -/
def State.nextPc (s : State) : PcWord := s.pc + 2

/-- A jump to the absolute target `x[rA]` (R140). -/
def jumpTo (r : Reg) (s : State) : Result := .next (s.setPc (zext9 (s.reg r)))

/-- CALL (R141): pushes pc + 2, then jumps to x[rA], read after the push (the spec's D20; log 11).
The return address is a byte because a step runs only with pc ≤ 253 (log 7). -/
def execCall (rA : Byte) (s : State) : Result :=
  withReg rA s fun r =>
    withPushRoom s (jumpTo r (s.decSp.store s.pushAddr (s.nextPc.setWidth 8)))

/-- RET (R142): the popped byte goes straight into pc. -/
def execRet (s : State) : Result :=
  withPopped s fun v => .next ((s.setPc (zext9 v)).incSp)

/-- JMP (R143). -/
def execJmp (rA : Byte) (s : State) : Result := withReg rA s fun r => jumpTo r s

/-- JEQ (R144): the register operand is checked whether or not the jump is taken. -/
def execJeq (rA : Byte) (s : State) : Result :=
  withReg rA s fun r => if s.flagsSayEqual then jumpTo r s else .next (s.setPc s.nextPc)

/-- JNE (R145): the register operand is checked whether or not the jump is taken. -/
def execJne (rA : Byte) (s : State) : Result :=
  withReg rA s fun r => if s.flagsSayEqual then .next (s.setPc s.nextPc) else jumpTo r s

end Sys2Proof.Machine
end

