-- ==== Sys2Proof/Machine/RegisterIo.lean ====
section
/-! DEFINITION. LDI, PRN and HLT (spec/41_register_io.md). -/

namespace Sys2Proof.Machine

/-- LDI (R100): the immediate byte, unchanged, into rA. -/
def execLdi (rA imm8 : Byte) (s : State) : Result :=
  withReg rA s fun r => .next ((s.setReg r imm8).advance .ldi)

/-- PRN (R101): one output event carrying x[rA]. -/
def execPrn (rA : Byte) (s : State) : Result :=
  withReg rA s fun r => .next ((s.emit (s.reg r)).advance .prn)

/-- HLT (R103): HALTED, and pc advances by 1 as it halts (the spec's D11; log 9). -/
def execHlt (s : State) : Result := .next (s.halt.advance .hlt)

end Sys2Proof.Machine
end

