-- ==== Sys2Proof/Machine/Dispatch.lean ====
section
/-! DEFINITION. One arm per instruction: `Exec(ins, a, b)` of spec/40_dispatch.md R84, with the register
checks of R83 before it and the sequential advance of R85 after it. -/

namespace Sys2Proof.Machine

def exec (i : Instr) (s : State) : Host.Outcome State Fault Refusal :=
  match i with
  | .hlt => Sys2Proof.Machine.execHlt s
  | .ret => Sys2Proof.Machine.execRet s
  | .push rA => Sys2Proof.Machine.execPush rA s
  | .pop rA => Sys2Proof.Machine.execPop rA s
  | .prn rA => Sys2Proof.Machine.execPrn rA s
  | .call rA => Sys2Proof.Machine.execCall rA s
  | .jmp rA => Sys2Proof.Machine.execJmp rA s
  | .jeq rA => Sys2Proof.Machine.execJeq rA s
  | .jne rA => Sys2Proof.Machine.execJne rA s
  | .not rA => Sys2Proof.Machine.execNot rA s
  | .ldi rA imm8 => Sys2Proof.Machine.execLdi rA imm8 s
  | .add rA rB => Sys2Proof.Machine.execAdd rA rB s
  | .mul rA rB => Sys2Proof.Machine.execMul rA rB s
  | .cmp rA rB => Sys2Proof.Machine.execCmp rA rB s
  | .and rA rB => Sys2Proof.Machine.execAnd rA rB s
  | .or rA rB => Sys2Proof.Machine.execOr rA rB s
  | .xor rA rB => Sys2Proof.Machine.execXor rA rB s

end Sys2Proof.Machine
end

