-- ==== Sys2Proof/Machine/Step.lean ====
section
/-! DEFINITION. One step of the machine (spec/40_dispatch.md R80, R87, R88). -/

namespace Sys2Proof.Machine

/-- The step of R87 while RUNNING: fetch, decode, then the instruction. -/
def stepRunning (s : State) : Result :=
  fetch s fun op a b =>
    match decode s.cfg.opcodes op a b with
    | .ok i => exec i s
    | .error e => undecodable e s

/-- A step exists only while RUNNING (R80, R88); in the other states the model stops by name. -/
def step (s : State) : Host.Outcome State Fault Refusal :=
  match s.status with
  | .running => stepRunning s
  | .idle => .fault .notStarted
  | .halted => .fault .alreadyHalted
  | .faulted => .fault .alreadyFaulted

/-- The state with an instruction placed where the next step fetches, RUNNING (log 5). -/
def State.withFetchWord (s : State) (nbits w : Nat) : State := s.placeWord nbits w

end Sys2Proof.Machine
end

