-- ==== Sys2Proof/Machine/Ports.lean ====
section
/-! DEFINITION. The ports of the block (spec/00_scope.md R7, R8; spec/10_state.md R31, R34): what the
host may do to the core, and what it sees of it. None of these is a step. -/

namespace Sys2Proof.Machine

/-! Inputs -/

/-- The `reset` input (R180): every piece of state at its reset value, memory included, whatever the
status. The parameters are not state of the spec and stay. -/
def State.resetInput (s : State) : State := { State.reset with cfg := s.cfg }

/-- One write on the load port (R7, R47): honoured in IDLE, ignored elsewhere. -/
def State.loadPort (s : State) (addr data : Byte) : State :=
  match s.status with
  | .idle => s.store addr data
  | .running | .halted | .faulted => s

/-- The `start` input (R31): IDLE becomes RUNNING, any other status is unchanged. -/
def State.startInput (s : State) : State :=
  match s.status with
  | .idle => { s with status := .running }
  | .running | .halted | .faulted => s

/-! Outputs -/

/-- The encoding of the `status` port (R31). -/
def RunStatus.code : RunStatus → BitVec 2
  | .idle => 0
  | .running => 1
  | .halted => 2
  | .faulted => 3

/-- The codes of R160. -/
def FaultKind.code : FaultKind → BitVec 3
  | .illegalInstruction => 1
  | .outOfBoundsMemory => 2
  | .outOfBoundsRegister => 3
  | .stackOverflow => 4
  | .stackUnderflow => 5
  | .unsupportedOperation => 6
  | .loadError => 7

/-- The `status` port. -/
def State.statusPort (s : State) : BitVec 2 := s.status.code

/-- The `fault_code` port: 0 when not faulted (R160). -/
def State.faultCodePort (s : State) : BitVec 3 :=
  match s.fault with
  | some f => f.kind.code
  | none => 0

/-- The `fault_pc` port, which has a meaning only in FAULTED (R7; log 13). -/
def State.faultPcPort (s : State) : Option PcWord := s.fault.map FaultRecord.fpc

/-- The `fault_info` port, which has a meaning only in FAULTED (R7; log 13). -/
def State.faultInfoPort (s : State) : Option PcWord := s.fault.map FaultRecord.info

/-- The event a step presents on `out_valid` and `out_data` (R7, R102), from the output traces before
and after it: the byte it appended, or no event. -/
def outEvent (before after : State) : Option Byte := after.out[before.out.length]?

/-- `insp_mem` at `insp_addr` (R7): the live byte in every status. The spec has the host inspect only in
HALTED or FAULTED (R8, R34); what the inspection ports show before that is the model's choice (log 16). -/
def State.inspMem (s : State) (addr : Byte) : Byte := s.load addr

/-- `insp_reg[i]` (R7): the live value; before HALTED or FAULTED the model's choice (log 16). -/
def State.inspReg (s : State) (r : Reg) : Byte := s.reg r

/-- `insp_pc` (R7): the live value; before HALTED or FAULTED the model's choice (log 16). -/
def State.inspPc (s : State) : PcWord := s.pc

/-- `insp_fl` (R7): the live value; before HALTED or FAULTED the model's choice (log 16). -/
def State.inspFl (s : State) : FlagWord := s.fl

/-- The observable end state (R34). -/
structure ExecutionResult where
  status : RunStatus
  mem : Memory
  x : Vector Byte 8
  out : List Byte
  fault : Option FaultRecord
  deriving DecidableEq, Repr

/-- What the host may read once the run has ended (R8, R34); nothing while it has not. -/
def State.executionResult (s : State) : Option ExecutionResult :=
  match s.status with
  | .halted | .faulted => some { status := s.status, mem := s.mem, x := s.x, out := s.out, fault := s.fault }
  | .idle | .running => none

end Sys2Proof.Machine
end

