-- ==== Sys2Proof/Machine/Loader.lean ====
section
/-! DEFINITION. The Loader (spec/20_memory.md R47, spec/30_encoding.md R69, spec/60_exceptions.md R173)
and the boot order (spec/70_reset_and_hazards.md R182). The Loader is the host's: it acts through the
load port only. Text parsing is outside the core's scope (R3) and is here as its input contract. -/

namespace Sys2Proof.Machine

/-- Why an image cannot be loaded (R173). -/
inductive LoadError where
  /-- The program file does not exist. -/
  | missingFile
  /-- A line is not a base-2 literal in [0, 255]. -/
  | malformedLine
  /-- The image has more than 256 bytes. -/
  | imageTooLong
  deriving DecidableEq, Repr

/-- One line of program text, without its line end. -/
abbrev Line := List Char

/-- The blank characters of a line (log 12). -/
def isBlank (c : Char) : Bool := c = ' ' ∨ c = '\t' ∨ c = '\r'

/-- A line without blanks at either end (log 12). -/
def trimLine (l : Line) : Line := ((l.dropWhile isBlank).reverse.dropWhile isBlank).reverse

/-- The value of a binary digit. -/
def binaryDigit (c : Char) : Option Nat :=
  if c = '0' then some 0 else if c = '1' then some 1 else none

/-- The value of binary digits after those already read, most significant first. -/
def binaryDigits : Nat → Line → Option Nat
  | acc, [] => some acc
  | acc, c :: rest =>
    match binaryDigit c with
    | some d => binaryDigits (2 * acc + d) rest
    | none => none

/-- A base-2 integer literal: one digit or more (R47, log 12). -/
def binaryLiteral (l : Line) : Option Nat :=
  match l with
  | [] => none
  | c :: rest => binaryDigits 0 (c :: rest)

/-- A line's byte (R47): none for a comment or a blank line; else the literal before the first `#`. -/
def parseLine (l : Line) : Except LoadError (Option Byte) :=
  if l.head? = some '#' then .ok none
  else if l.all isBlank then .ok none
  else
    match binaryLiteral (trimLine (l.takeWhile fun c => c ≠ '#')) with
    | some n => if n ≤ 255 then .ok (some (BitVec.ofNat 8 n)) else .error .malformedLine
    | none => .error .malformedLine

/-- The bytes of program text, in file order (R47). A malformed line anywhere is the answer, whatever the
number of bytes: the order of the causes is the model's choice (log 17). -/
def parseProgram : List Line → Except LoadError (List Byte)
  | [] => .ok []
  | l :: rest =>
    match parseLine l, parseProgram rest with
    | .ok (some b), .ok bs => .ok (b :: bs)
    | .ok none, .ok bs => .ok bs
    | .error e, _ => .error e
    | .ok _, .error e => .error e

/-- The image written through the load port at ascending addresses (R47). -/
def State.loadBytes (s : State) : Nat → List Byte → State
  | _, [] => s
  | a, b :: rest => State.loadBytes (s.loadPort (BitVec.ofNat 8 a) b) (a + 1) rest

/-- The bytes of program text before its first malformed line, in file order. -/
def parsedBytes : List Line → List Byte
  | [] => []
  | l :: rest =>
    match parseLine l with
    | .ok (some b) => b :: parsedBytes rest
    | .ok none => parsedBytes rest
    | .error _ => []

/-- What the Loader leaves: the core, and the LoadError it reports to its caller, if any (R173). -/
structure LoadResult where
  state : State
  error : Option LoadError
  deriving DecidableEq, Repr

/-- A load that fails on text or image with these bytes. `written` is how many of them the Loader has
written by then, which the spec leaves open and the host chooses: an input, never fixed here (log 17).
The 256 addresses that exist take no more than 256. -/
def State.failLoad (s : State) (written : Nat) (bytes : List Byte) (e : LoadError) : LoadResult :=
  { state := s.loadBytes 0 ((bytes.take 256).take written), error := some e }

/-- An image loaded from address 0; over 256 bytes it is a LoadError (R47, R173). -/
def State.loadImage (s : State) (written : Nat) (image : List Byte) : LoadResult :=
  if image.length ≤ 256 then { state := s.loadBytes 0 image, error := none }
  else s.failLoad written image .imageTooLong

/-- The host gives `start` once the image is in (R8, R182), and never after a LoadError: the core then
stays IDLE (R173). -/
def LoadResult.start (r : LoadResult) : LoadResult :=
  match r.error with
  | none => { r with state := r.state.startInput }
  | some _ => r

/-- The boot order of R182: reset, the image, start. -/
def bootImage (written : Nat) (s : State) (image : List Byte) : LoadResult :=
  (s.resetInput.loadImage written image).start

/-- Booting from program text (R47, R173, R182). No text means that the file does not exist: nothing is
written. A malformed line anywhere is the LoadError reported, also for a text of more than 256 bytes: the
spec gives the causes no order, and this is the model's choice (log 17). -/
def bootProgram (written : Nat) (s : State) (text : Option (List Line)) : LoadResult :=
  match text with
  | none => { state := s.resetInput, error := some .missingFile }
  | some lines =>
    match parseProgram lines with
    | .ok image => bootImage written s image
    | .error e => s.resetInput.failLoad written (parsedBytes lines) e

end Sys2Proof.Machine
end

