-- ==== Sys2Proof/Safety.lean ====
section
/-! DEFINITION. What counts as a state of the machine that a run can reach, and as the end of a run
(spec/70_reset_and_hazards.md R189). -/

namespace Sys2Proof.Machine

/-- The legal values of FL (R27). -/
abbrev LegalFlags (fl : FlagWord) : Prop :=
  fl = 0b000 ∨ fl = flagEqual ∨ fl = flagGreater ∨ fl = flagLess

/-- What R160 says of a record's datum, for the kinds the core raises; the two kinds it never raises
are illegal (R119, R173). -/
def FaultRecord.Legal (m : OpcodeMap) (f : FaultRecord) : Prop :=
  match f.kind with
  | .illegalInstruction => f.info.toNat ≤ 255 ∧ m.mnemonicOf (f.info.setWidth 8) = none
  | .outOfBoundsMemory => f.info = 256 ∧ 254 ≤ f.fpc.toNat
  | .outOfBoundsRegister => 8 ≤ f.info.toNat ∧ f.info.toNat ≤ 255
  | .stackOverflow => f.info = 0
  | .stackUnderflow => f.info.toNat ≤ 255
  | .unsupportedOperation => False
  | .loadError => False

/-- The invariant of the machine: memory in canonical form, pc at most 256 (R24), FL legal (R27), and
a fault record exactly in FAULTED, legal and of the instruction at pc (R32, R160 to R162). -/
structure State.Inv (s : State) : Prop where
  mem_wf : s.mem.wf
  pc_le : s.pc.toNat ≤ 256
  fl_legal : LegalFlags s.fl
  fault_iff : s.status = .faulted ↔ s.fault.isSome = true
  fault_legal : ∀ f, s.fault = some f → f.fpc = s.pc ∧ f.Legal s.cfg.opcodes

/-- The state after at most `k` steps, where the run stops if no step exists. -/
def runFor : Nat → State → State
  | 0, s => s
  | k + 1, s =>
    match step s with
    | .next t => runFor k t
    | .fault _ | .refused _ => s

/-- The three ends of a run (R189). -/
inductive RunEnd where
  | halted
  | faulted (f : Option FaultRecord)
  | unfinished
  deriving DecidableEq, Repr

/-- How a run that the host stops after `k` steps has ended (R189). -/
def runEnd (k : Nat) (s : State) : RunEnd :=
  let t := runFor k s
  match t.status with
  | .halted => .halted
  | .faulted => .faulted t.fault
  | .idle | .running => .unfinished

/-- A run is safe when it has not ended in a fault: a claim treats that end as failure (R189). -/
def SafeRun (k : Nat) (s : State) : Prop := (runFor k s).status ≠ .faulted

/-- The plain line of a byte in program text (R47, R69): its eight binary digits, most significant
first, and nothing else. -/
def binaryLine (b : Byte) : Line :=
  (List.range 8).reverse.map fun i => if b.getLsbD i then '1' else '0'

/-- A line of nothing but blanks (log 12), the empty line among these. -/
def BlankLine (l : Line) : Prop := ∀ c ∈ l, c = ' ' ∨ c = '\t' ∨ c = '\r'

/-- A line of nothing but binary digits. -/
def DigitLine (l : Line) : Prop := ∀ c ∈ l, c = '0' ∨ c = '1'

/-- An instruction with one register operand raises OutOfBounds(register, byte) on every byte above 7
(R83), whatever the rest of the state, and then changes nothing else (R162). -/
def ChecksOneRegister (mk : Byte → Instr) : Prop :=
  ∀ (s : State) (a : Byte), 8 ≤ a.toNat →
    exec (mk a) s = .next (s.enterFault .outOfBoundsRegister (zext9 a))

/-- An instruction with two register operands checks the first, then the second (R83, R165). -/
def ChecksTwoRegisters (mk : Byte → Byte → Instr) : Prop :=
  ∀ (s : State) (a b : Byte),
    (8 ≤ a.toNat → exec (mk a b) s = .next (s.enterFault .outOfBoundsRegister (zext9 a))) ∧
      (a.toNat < 8 → 8 ≤ b.toNat →
        exec (mk a b) s = .next (s.enterFault .outOfBoundsRegister (zext9 b)))

end Sys2Proof.Machine
end

