-- ==== Sys2Proof/Certificates/Slice0/Obligations.lean ====
section
/-! DEFINITION. The statements about SCCA8 that the provers prove, from the numbered rules of spec/. A
fault is a next state in FAULTED (`State.enterFault`, R161, R162). Where a statement is about the bytes
of an instruction it uses the default map; the others hold under every `OPCODE_MAP`. -/

open Sys2Proof Sys2Proof.Machine

/-! Load, print, halt (41_register_io.md) -/

/-- R100: LDI writes its immediate, any byte, into the register it names, R7 included, and pc advances
by 3; nothing else changes. The byte 0x82 is the default map's (D1; log 2), and the fault on a register
byte above 7 is the spec's own choice (D7; log 14). -/
def Obligations.LdiLoadsImmediate : Prop :=
  (∀ (s : State) (r : Reg) (v : Byte),
    exec (.ldi (regByte r) v) s = .next { s with x := s.x.set r v, pc := s.pc + 3 }) ∧
  (∀ v : Byte, ChecksOneRegister fun a => .ldi a v) ∧
  ∀ a v : Byte, encode OpcodeMap.ls8 (.ldi a v) = [0x82, a, v]

/-- R101: PRN appends the register's value to the output trace, as the one event of the step, and pc
advances by 2; nothing else changes. The byte 0x47 is the default map's (D1; log 2), and the fault on a
register byte above 7 is the spec's own choice (D7; log 14). -/
def Obligations.PrnEmitsRegister : Prop :=
  (∀ (s : State) (r : Reg),
    exec (.prn (regByte r)) s = .next { s with out := s.out ++ [s.x[r]], pc := s.pc + 2 } ∧
    outEvent s { s with out := s.out ++ [s.x[r]], pc := s.pc + 2 } = some s.x[r]) ∧
  ChecksOneRegister .prn ∧
  ∀ a : Byte, encode OpcodeMap.ls8 (.prn a) = [0x47, a]

/-- R103, whose clause on pc is the spec's own choice (D11; log 9): HLT stops the machine in HALTED with
pc advanced by 1, and changes nothing else. pc in HALTED is no result of a run (R34). -/
def Obligations.HltHalts : Prop :=
  ∀ s : State, exec .hlt s = .next { s with status := .halted, pc := s.pc + 1 }

/-! ALU (42_alu.md) -/

/-- R111 (wrapping is the spec's own choice, D2; log 14): ADD writes the exact sum modulo 256 to its first
register, both registers read before the write, and changes only that register and pc.
The fault on a register byte above 7 is the spec's own choice (D7; log 14). -/
def Obligations.AddWrapsModulo256 : Prop :=
  (∀ (s : State) (a b : Reg),
    exec (.add (regByte a) (regByte b)) s =
      .next { s with
        x := s.x.set a (BitVec.ofNat 8 ((s.x[a].toNat + s.x[b].toNat) % 256)), pc := s.pc + 3 }) ∧
  ChecksTwoRegisters .add

/-- R112 (wrapping is the spec's own choice, D2; log 14): MUL writes the exact product modulo 256 to its first
register and changes only that register and pc.
The fault on a register byte above 7 is the spec's own choice (D7; log 14). -/
def Obligations.MulWrapsModulo256 : Prop :=
  (∀ (s : State) (a b : Reg),
    exec (.mul (regByte a) (regByte b)) s =
      .next { s with
        x := s.x.set a (BitVec.ofNat 8 (s.x[a].toNat * s.x[b].toNat % 256)), pc := s.pc + 3 }) ∧
  ChecksTwoRegisters .mul

/-- R113, R114, R115: AND, OR and XOR write the bitwise result to their first register and change only
that register and pc. The opcode bytes are the default map's (D1; log 2), and the fault on a register
byte above 7 is the spec's own choice (D7; log 14). -/
def Obligations.AndOrXorAreBitwise : Prop :=
  (∀ (s : State) (a b : Reg),
    exec (.and (regByte a) (regByte b)) s =
      .next { s with x := s.x.set a (s.x[a] &&& s.x[b]), pc := s.pc + 3 } ∧
    exec (.or (regByte a) (regByte b)) s =
      .next { s with x := s.x.set a (s.x[a] ||| s.x[b]), pc := s.pc + 3 } ∧
    exec (.xor (regByte a) (regByte b)) s =
      .next { s with x := s.x.set a (s.x[a] ^^^ s.x[b]), pc := s.pc + 3 }) ∧
  ChecksTwoRegisters .and ∧ ChecksTwoRegisters .or ∧ ChecksTwoRegisters .xor ∧
  ∀ a b : Byte, encode OpcodeMap.ls8 (.and a b) = [0xA8, a, b] ∧
    encode OpcodeMap.ls8 (.or a b) = [0xAA, a, b] ∧ encode OpcodeMap.ls8 (.xor a b) = [0xAB, a, b]

/-- R116 under REFERENCE_INEQUALITY (the spec's own choice of default and of the second register, D3,
D4; log 6): NOT writes 1 if the two registers differ and 0 if not; the second register is named by the
byte at pc+2, which is checked after the first.
The faults on a register byte above 7, and their order, are the spec's own choices (D7, D9; logs 14, 10). -/
def Obligations.NotReferenceComparesRegisters : Prop :=
  ∀ s : State, s.cfg.notSemantics = .referenceInequality → s.pc.toNat ≤ 253 →
    (∀ r q : Reg, s.mem.read (s.pc.toNat + 2) = regByte q →
      exec (.not (regByte r)) s =
        .next { s with x := s.x.set r (if s.x[r] ≠ s.x[q] then 1 else 0), pc := s.pc + 2 }) ∧
    (∀ a : Byte, 8 ≤ a.toNat →
      exec (.not a) s = .next (s.enterFault .outOfBoundsRegister (zext9 a))) ∧
    (∀ r : Reg, 8 ≤ (s.mem.read (s.pc.toNat + 2)).toNat →
      exec (.not (regByte r)) s =
        .next (s.enterFault .outOfBoundsRegister (zext9 (s.mem.read (s.pc.toNat + 2)))))

/-- R116 under ONES_COMPLEMENT (D3; log 3): NOT writes 255 minus the register's value, whatever byte follows
the instruction.
The fault on a register byte above 7 is the spec's own choice (D7; log 14). -/
def Obligations.NotOnesComplementInverts : Prop :=
  ∀ s : State, s.cfg.notSemantics = .onesComplement →
    (∀ r : Reg, exec (.not (regByte r)) s =
      .next { s with x := s.x.set r (BitVec.ofNat 8 (255 - s.x[r].toNat)), pc := s.pc + 2 }) ∧
    (∀ a : Byte, 8 ≤ a.toNat →
      exec (.not a) s = .next (s.enterFault .outOfBoundsRegister (zext9 a)))

/-- R117: CMP writes all of FL, EQUAL, GREATER or LESS by an unsigned comparison, whatever FL was, and
changes nothing else but pc. The byte 0xA7 is the default map's (D1; log 2), and the fault on a register
byte above 7 is the spec's own choice (D7; log 14). -/
def Obligations.CmpSetsExactlyOneFlag : Prop :=
  (∀ (s : State) (a b : Reg),
    exec (.cmp (regByte a) (regByte b)) s =
      .next { s with
        fl := if s.x[a] = s.x[b] then 0b001 else if s.x[b].toNat < s.x[a].toNat then 0b010 else 0b100
        pc := s.pc + 3 }) ∧
  ChecksTwoRegisters .cmp ∧
  ∀ a b : Byte, encode OpcodeMap.ls8 (.cmp a b) = [0xA7, a, b]

/-! Stack (43_stack.md) -/

/-- R131: PUSH decrements SP, then stores the register at the new SP (PUSH R7 stores the new SP), with
pc advanced by 2 and every other byte, register and field unchanged; with SP = 0 it raises
StackOverflow(0) and writes nothing. The byte 0x45 is the default map's (D1; log 2); the overflow at
SP = 0 and the fault on a register byte above 7 are the spec's own choices (D8, D7; log 14). -/
def Obligations.PushStoresBelowStackPointer : Prop :=
  (∀ (s : State) (r : Reg), s.x[7] ≠ 0 →
    ∃ t, exec (.push (regByte r)) s = .next t ∧
      t.x = s.x.set 7 (s.x[7] - 1) ∧ t.pc = s.pc + 2 ∧
      (∀ n, t.mem.read n =
        if n = (s.x[7] - 1).toNat then (if r = 7 then s.x[7] - 1 else s.x[r]) else s.mem.read n) ∧
      t.fl = s.fl ∧ t.status = s.status ∧ t.fault = s.fault ∧ t.out = s.out ∧ t.cfg = s.cfg) ∧
  (∀ (s : State) (r : Reg), s.x[7] = 0 →
    exec (.push (regByte r)) s = .next (s.enterFault .stackOverflow 0)) ∧
  ChecksOneRegister .push ∧
  ∀ a : Byte, encode OpcodeMap.ls8 (.push a) = [0x45, a]

/-- R132 (its bounds are the spec's own choice, D8; log 14): POP reads at SP, writes the byte to its register and
then increments SP, so POP R7 leaves the byte plus 1; memory is unchanged. With SP = 255, and where
POP R7 would take SP to 256, it raises StackUnderflow(SP) and writes nothing.
The fault on a register byte above 7 is the spec's own choice (D7; log 14). -/
def Obligations.PopLoadsThenIncrements : Prop :=
  (∀ (s : State) (r : Reg), s.x[7] ≠ 255 → (r = 7 → s.mem.read s.x[7].toNat ≠ 255) →
    exec (.pop (regByte r)) s =
      .next { s with
        x := (s.x.set r (s.mem.read s.x[7].toNat)).set 7
          (if r = 7 then s.mem.read s.x[7].toNat + 1 else s.x[7] + 1)
        pc := s.pc + 2 }) ∧
  (∀ (s : State) (r : Reg), s.x[7] = 255 →
    exec (.pop (regByte r)) s = .next (s.enterFault .stackUnderflow 255)) ∧
  (∀ s : State, s.x[7] ≠ 255 → s.mem.read s.x[7].toNat = 255 →
    exec (.pop 7) s = .next (s.enterFault .stackUnderflow (zext9 s.x[7]))) ∧
  ChecksOneRegister .pop

/-- The law of R133 (derived there): PUSH then POP of one register, R7 included, restores every register
and SP; only the byte below the old SP may differ. -/
def Obligations.PushThenPopRestoresRegisters : Prop :=
  ∀ (s : State) (r : Reg), s.x[7] ≠ 0 →
    ∃ t u, exec (.push (regByte r)) s = .next t ∧ exec (.pop (regByte r)) t = .next u ∧
      u.x = s.x ∧ u.pc = s.pc + 4 ∧ u.fl = s.fl ∧ u.out = s.out ∧ u.status = s.status ∧
      ∀ n, n ≠ (s.x[7] - 1).toNat → u.mem.read n = s.mem.read n

/-! Control flow (44_control_flow.md) -/

/-- R141 (the read of the target after the push is the spec's own choice, D20; log 11): CALL pushes
pc + 2 and jumps to its register's value, which for CALL R7 is the decremented SP; with SP = 0 it raises
StackOverflow(0) and writes nothing.
The overflow at SP = 0 and the fault on a register byte above 7 are the spec's own choices (D8, D7;
log 14). -/
def Obligations.CallPushesReturnAddress : Prop :=
  (∀ (s : State) (r : Reg), s.x[7] ≠ 0 → s.pc.toNat ≤ 253 →
    ∃ t, exec (.call (regByte r)) s = .next t ∧
      t.x = s.x.set 7 (s.x[7] - 1) ∧ t.pc = zext9 (if r = 7 then s.x[7] - 1 else s.x[r]) ∧
      (∀ n, t.mem.read n =
        if n = (s.x[7] - 1).toNat then BitVec.ofNat 8 (s.pc.toNat + 2) else s.mem.read n) ∧
      t.fl = s.fl ∧ t.status = s.status ∧ t.fault = s.fault ∧ t.out = s.out ∧ t.cfg = s.cfg) ∧
  (∀ (s : State) (r : Reg), s.x[7] = 0 →
    exec (.call (regByte r)) s = .next (s.enterFault .stackOverflow 0)) ∧
  ChecksOneRegister .call

/-- R142: RET pops the stack straight into pc, only SP of the registers changes, and with SP = 255 it
raises StackUnderflow(255) and writes nothing; a popped 254 or 255 makes the next step fault. The byte
0x11 is the default map's (D1; log 2); the underflow at SP = 255 and the next step's fault are the
spec's own choices (D8, D6; log 14). -/
def Obligations.RetPopsIntoPc : Prop :=
  (∀ s : State, s.x[7] ≠ 255 →
    exec .ret s =
      .next { s with x := s.x.set 7 (s.x[7] + 1), pc := zext9 (s.mem.read s.x[7].toNat) }) ∧
  (∀ s : State, s.x[7] = 255 → exec .ret s = .next (s.enterFault .stackUnderflow 255)) ∧
  (∀ s t : State, s.status = .running → s.x[7] ≠ 255 → 254 ≤ (s.mem.read s.x[7].toNat).toNat →
    exec .ret s = .next t → step t = .next (t.enterFault .outOfBoundsMemory 256)) ∧
  encode OpcodeMap.ls8 .ret = [0x11]

/-- R143: JMP sets pc to its register's value and changes nothing else, so a JMP to itself leaves the
state as it was. The byte 0x54 is the default map's (D1; log 2), and the fault on a register byte above
7 is the spec's own choice (D7; log 14). -/
def Obligations.JmpGoesToRegister : Prop :=
  (∀ (s : State) (r : Reg),
    exec (.jmp (regByte r)) s = .next { s with pc := zext9 s.x[r] }) ∧
  (∀ (s : State) (r : Reg), zext9 s.x[r] = s.pc → exec (.jmp (regByte r)) s = .next s) ∧
  ChecksOneRegister .jmp ∧
  ∀ a : Byte, encode OpcodeMap.ls8 (.jmp a) = [0x54, a]

/-- R144 (that the operand is checked when the jump is not taken is the spec's own choice, D7; log 14): JEQ jumps
exactly when the whole of FL is EQUAL, else pc advances by 2; nothing but pc changes. -/
def Obligations.JeqJumpsIffEqual : Prop :=
  (∀ (s : State) (r : Reg),
    exec (.jeq (regByte r)) s =
      .next { s with pc := if s.fl = 0b001 then zext9 s.x[r] else s.pc + 2 }) ∧
  ChecksOneRegister .jeq

/-- R145 (the operand check as in R144, D7; log 14): JNE jumps exactly when FL is not EQUAL, before any CMP too,
else pc advances by 2; nothing but pc changes. -/
def Obligations.JneJumpsIffNotEqual : Prop :=
  (∀ (s : State) (r : Reg),
    exec (.jne (regByte r)) s =
      .next { s with pc := if s.fl ≠ 0b001 then zext9 s.x[r] else s.pc + 2 }) ∧
  ChecksOneRegister .jne

/-- R144, R145 after R117: a JEQ right after a CMP jumps exactly when the compared registers were equal,
a JNE exactly when they differed. -/
def Obligations.CompareThenBranchDecides : Prop :=
  ∀ (s : State) (p q r : Reg), ∃ t u w,
    exec (.cmp (regByte p) (regByte q)) s = .next t ∧
    exec (.jeq (regByte r)) t = .next u ∧ exec (.jne (regByte r)) t = .next w ∧
    (s.x[p] = s.x[q] → u.pc = zext9 s.x[r] ∧ w.pc = s.pc + 5) ∧
    (s.x[p] ≠ s.x[q] → u.pc = s.pc + 5 ∧ w.pc = zext9 s.x[r])

/-- The law of R146 (derived there): a RET in any later state with the SP and the return-address cell
that the CALL left goes on at the byte after the CALL, with SP as before it. -/
def Obligations.ReturnResumesAfterCall : Prop :=
  ∀ (s : State) (r : Reg), s.x[7] ≠ 0 → s.pc.toNat ≤ 253 →
    ∃ t, exec (.call (regByte r)) s = .next t ∧
      ∀ u : State, u.x[7] = t.x[7] → u.mem.read t.x[7].toNat = t.mem.read t.x[7].toNat →
        ∃ v, exec .ret u = .next v ∧ v.pc = s.pc + 2 ∧ v.x[7] = s.x[7] ∧ v.mem = u.mem

/-! Frames and whole-machine rules -/

/-- R22, R28, R110: a register that an instruction changes is its first operand, for the instructions
that write `x[rA]`, or R7, for the stack instructions.
That a fault changes none of these is the spec's own choice (D22; log 10). -/
def Obligations.OnlyDestinationRegistersChange : Prop :=
  ∀ (i : Instr) (s t : State) (q : Reg), exec i s = .next t → t.x[q] ≠ s.x[q] →
    match i with
    | .ldi a _ | .add a _ | .mul a _ | .and a _ | .or a _ | .xor a _ | .not a => a = regByte q
    | .pop a => a = regByte q ∨ q = 7
    | .push _ | .call _ | .ret => q = 7
    | .hlt | .prn _ | .jmp _ | .jeq _ | .jne _ | .cmp _ _ => False

/-- R48: only PUSH and CALL change memory, and only the byte at the address they push to.
That a fault changes none of these is the spec's own choice (D22; log 10). -/
def Obligations.OnlyPushAndCallStore : Prop :=
  ∀ (i : Instr) (s t : State), exec i s = .next t →
    match i with
    | .push _ | .call _ => ∀ n, n ≠ s.pushAddr.toNat → t.mem.read n = s.mem.read n
    | .hlt | .ret | .pop _ | .prn _ | .jmp _ | .jeq _ | .jne _ | .not _ | .ldi _ _ | .add _ _
    | .mul _ _ | .cmp _ _ | .and _ _ | .or _ _ | .xor _ _ => ∀ n, t.mem.read n = s.mem.read n

/-- R28: a step that changes FL executed a CMP.
That a fault changes none of these is the spec's own choice (D22; log 10). -/
def Obligations.OnlyCmpWritesFlags : Prop :=
  ∀ s t : State, step s = .next t → t.fl ≠ s.fl →
    s.cfg.opcodes.mnemonicOf (s.mem.read s.pc.toNat) = some .cmp

/-- R102: a step leaves the output trace as it is, or executed a PRN and appended its register's value.
That a fault changes none of these is the spec's own choice (D22; log 10). -/
def Obligations.OnlyPrnEmits : Prop :=
  ∀ s t : State, step s = .next t →
    t.out = s.out ∨
      (s.cfg.opcodes.mnemonicOf (s.mem.read s.pc.toNat) = some .prn ∧
        ∃ r : Reg, s.mem.read (s.pc.toNat + 1) = regByte r ∧ t.out = s.out ++ [s.x[r]])

/-- R29: JEQ and JNE compare the whole of FL with EQUAL. Every other instruction gives the same registers,
memory, pc, output, status and fault whatever FL holds, so none moves FL into a register or memory. CMP
sets G and L, but no instruction tells two FL values apart that agree on being EQUAL. -/
def Obligations.OnlyEqualIsObservable : Prop :=
  (∀ (s : State) (r : Reg),
    exec (.jeq (regByte r)) s =
      .next { s with pc := if s.fl = 0b001 then zext9 s.x[r] else s.pc + 2 } ∧
    exec (.jne (regByte r)) s =
      .next { s with pc := if s.fl = 0b001 then s.pc + 2 else zext9 s.x[r] }) ∧
  (∀ (i : Instr) (s t : State) (f g : FlagWord), (∀ a, i ≠ .jeq a ∧ i ≠ .jne a) →
    exec i { s with fl := f } = .next t →
    ∃ u, exec i { s with fl := g } = .next u ∧ { u with fl := t.fl } = t) ∧
  (∀ (s : State) (a b : Reg),
    (s.x[b].toNat < s.x[a].toNat →
      ∃ t, exec (.cmp (regByte a) (regByte b)) s = .next t ∧ t.fl = 0b010) ∧
    (s.x[a].toNat < s.x[b].toNat →
      ∃ t, exec (.cmp (regByte a) (regByte b)) s = .next t ∧ t.fl = 0b100)) ∧
  ∀ (i : Instr) (s t : State) (f g : FlagWord), (f = 0b001 ↔ g = 0b001) →
    exec i { s with fl := f } = .next t →
    ∃ u, exec i { s with fl := g } = .next u ∧ { u with fl := t.fl } = t

/-- R25, R85: after a sequential instruction that did not fault, pc has advanced by the length of the
instruction's encoding, under every `OPCODE_MAP`. For HLT, whose pc in HALTED no claim should read
(R189), this is the spec's own choice (D11; log 9). -/
def Obligations.SequentialAdvanceIsEncodingLength : Prop :=
  ∀ (i : Instr) (s t : State), exec i s = .next t → s.status = .running → t.status ≠ .faulted →
    (match i with
      | .call _ | .ret | .jmp _ | .jeq _ | .jne _ => False
      | .hlt | .push _ | .pop _ | .prn _ | .not _ | .ldi _ _ | .add _ _ | .mul _ _ | .cmp _ _
      | .and _ _ | .or _ _ | .xor _ _ => True) →
    t.pc = s.pc + BitVec.ofNat 9 (encode s.cfg.opcodes i).length

/-- The model's parameters (log 1): no step, host write, start or reset changes them. -/
def Obligations.ParametersNeverChange : Prop :=
  (∀ s t : State, step s = .next t → t.cfg = s.cfg) ∧
  ∀ (s : State) (a v : Byte),
    (s.loadPort a v).cfg = s.cfg ∧ s.startInput.cfg = s.cfg ∧ s.resetInput.cfg = s.cfg

/-! The step (40_dispatch.md) -/

/-- From R84, R87: while RUNNING with pc ≤ 253, a step whose bytes decode to an instruction is that
instruction's meaning at this state. R87 puts the register checks and the advance around Exec; that they
stand in the meaning instead, so that nothing is added around it, is the model's choice (log 8). -/
def Obligations.StepRunsDecodedInstruction : Prop :=
  ∀ (s : State) (i : Instr), s.status = .running → s.pc.toNat ≤ 253 →
    decode s.cfg.opcodes (s.mem.read s.pc.toNat) (s.mem.read (s.pc.toNat + 1))
      (s.mem.read (s.pc.toNat + 2)) = .ok i →
    step s = exec i s

/-- R81 (the spec's own choice, D6; log 14): a step at pc 254 or more raises OutOfBounds(memory) at the first
fetch address past 255, whatever the bytes there are. -/
def Obligations.FetchPastMemoryFaults : Prop :=
  ∀ s : State, s.status = .running → 254 ≤ s.pc.toNat →
    step s = .next (s.enterFault .outOfBoundsMemory (if s.pc.toNat ≤ 255 then 256 else s.pc))

/-- R82: an opcode byte that no row of the map has raises IllegalInstruction with that byte, once the
fetch has passed; at pc 254 or 255 the fetch's OutOfBounds comes first: the spec's own
choice of fetch bounds and of order (D6, D9; logs 14 and 10). -/
def Obligations.UnknownOpcodeFaults : Prop :=
  ∀ s : State, s.status = .running → (∀ k, s.cfg.opcodes.byteOf k ≠ s.mem.read s.pc.toNat) →
    (s.pc.toNat ≤ 253 →
      step s = .next (s.enterFault .illegalInstruction (zext9 (s.mem.read s.pc.toNat)))) ∧
    (s.pc.toNat = 254 ∨ s.pc.toNat = 255 → step s = .next (s.enterFault .outOfBoundsMemory 256))

/-- R88: outside RUNNING no step gives a next state; HALTED and FAULTED are left by `reset` only, IDLE by
`start` or `reset`. What the load port does in each status is R47's and R31's, the spec's own choice
(D14; log 13). -/
def Obligations.NoStepOutsideRunning : Prop :=
  (∀ s t : State, s.status ≠ .running → step s ≠ .next t) ∧
  (∀ (s : State) (a v : Byte), s.status = .halted ∨ s.status = .faulted →
    s.startInput = s ∧ s.loadPort a v = s ∧ s.resetInput.status = .idle) ∧
  ∀ (s : State) (a v : Byte), s.status = .idle →
    s.startInput.status = .running ∧ s.resetInput.status = .idle ∧ (s.loadPort a v).status = .idle

/-- R83, R165 (the check and its order are the spec's own choices, D7, D9; logs 14, 10): a register operand above 7 is reported before any
stack fault, the first operand before the second. -/
def Obligations.RegisterChecksComeFirst : Prop :=
  ∀ (s : State) (i : Instr), s.status = .running → s.pc.toNat ≤ 253 →
    decode s.cfg.opcodes (s.mem.read s.pc.toNat) (s.mem.read (s.pc.toNat + 1))
      (s.mem.read (s.pc.toNat + 2)) = .ok i →
    (∀ a rest, i.registerOperands = a :: rest → 8 ≤ a.toNat →
      step s = .next (s.enterFault .outOfBoundsRegister (zext9 a))) ∧
    (∀ a b, i.registerOperands = [a, b] → a.toNat < 8 → 8 ≤ b.toNat →
      step s = .next (s.enterFault .outOfBoundsRegister (zext9 b)))

/-- R80, R87: a RUNNING machine always takes a step, and every instruction answers a next state from
every state: no instruction is refused or stops the model.
That a fault is taken as a next state is the model's form of R161 (log 4). -/
def Obligations.RunningMachineAlwaysSteps : Prop :=
  (∀ s : State, s.status = .running → ∃ t, step s = .next t) ∧
  ∀ (i : Instr) (s : State), ∃ t, exec i s = .next t

/-- R162 (precision is the spec's own choice, D22; log 10): a step that faults changes nothing but the
status and the fault record, which names the pc of the faulting instruction. -/
def Obligations.FaultingStepChangesNothingElse : Prop :=
  ∀ s t : State, step s = .next t → t.status = .faulted →
    ∃ k info, t = { s with status := .faulted, fault := some ⟨k, s.pc, info⟩ }

/-- R119, R173 (UnsupportedOperation being reserved is the spec's own choice, D25): no step records
UnsupportedOperation, which the ALU cannot raise, or LoadError, which is the host's. -/
def Obligations.ReservedFaultKindsNeverRaised : Prop :=
  ∀ s t : State, step s = .next t → t.status = .faulted →
    ∃ f, t.fault = some f ∧ f.kind ≠ .unsupportedOperation ∧ f.kind ≠ .loadError

/-- From R171: a step ends in HALTED only by executing HLT, and then always; in HALTED nothing but `reset`
does anything, and the host can read status, memory, registers, output and fault record (pc and FL, which
R171 makes readable too, are not in this statement). That the load port is ignored and that a step has
pc at most 253 are the spec's own choices (D14, D6; logs 13 and 14). -/
def Obligations.HaltedOnlyThroughHlt : Prop :=
  (∀ s t : State, step s = .next t → s.pc.toNat ≤ 253 →
    (t.status = .halted ↔ s.cfg.opcodes.mnemonicOf (s.mem.read s.pc.toNat) = some .hlt)) ∧
  (∀ s t : State, step s = .next t → t.status = .halted → s.pc.toNat ≤ 253) ∧
  ∀ (s : State) (a v : Byte), s.status = .halted →
    (∀ t, step s ≠ .next t) ∧ s.startInput = s ∧ s.loadPort a v = s ∧
      s.resetInput.status = .idle ∧
      s.executionResult = some { status := .halted, mem := s.mem, x := s.x, out := s.out, fault := s.fault }

/-- R51 (derived there; the spec's own choice, D15): a byte that PUSH stores is what a later fetch at that address reads, with no
flush: the step there runs the row of that byte, or faults on it. -/
def Obligations.PushedByteIsFetched : Prop :=
  ∀ (s : State) (r : Reg), s.status = .running → s.x[7] ≠ 0 → (s.x[7] - 1).toNat ≤ 253 → r ≠ 7 →
    ∃ t, exec (.push (regByte r)) s = .next t ∧
      (∀ k, s.cfg.opcodes.byteOf k = s.x[r] →
        step { t with pc := zext9 (s.x[7] - 1) } =
          exec (assemble k (s.mem.read s.x[7].toNat) (s.mem.read (s.x[7].toNat + 1)))
            { t with pc := zext9 (s.x[7] - 1) }) ∧
      ((∀ k, s.cfg.opcodes.byteOf k ≠ s.x[r]) →
        step { t with pc := zext9 (s.x[7] - 1) } =
          .next (State.enterFault { t with pc := zext9 (s.x[7] - 1) } .illegalInstruction (zext9 s.x[r])))

/-- R81: the value of a fetched byte that the instruction does not use has no effect. For every
instruction that leaves a fetched byte unused (NOT under ONES_COMPLEMENT only), another value in that byte
gives the same step: every field of the state the same, and every byte but that one. A byte that is also
the stack cell the instruction pushes to or pops from is used. -/
def Obligations.UnusedFetchedByteHasNoEffect : Prop :=
  ∀ (s t : State) (k : Mnemonic) (j : Nat) (v : Byte), s.pc.toNat ≤ 253 →
    s.cfg.opcodes.mnemonicOf (s.mem.read s.pc.toNat) = some k →
    k.operandCount < j → j ≤ 2 →
    (match k with
      | .push | .call => s.x[7] ≠ 0 → s.pc.toNat + j ≠ s.pushAddr.toNat
      | .pop | .ret => s.x[7] ≠ 255 → s.pc.toNat + j ≠ s.x[7].toNat
      | .not => s.cfg.notSemantics = .onesComplement
      | .hlt | .prn | .jmp | .jeq | .jne | .ldi | .add | .mul | .cmp | .and | .or | .xor => True) →
    step s = .next t →
    ∃ u, step { s with mem := s.mem.write (s.pc.toNat + j) v } = .next u ∧
      { u with mem := t.mem } = t ∧
      ∀ n, u.mem.read n = if n = s.pc.toNat + j then v else t.mem.read n

/-- R116's corner case (derived there), under the defaults, which are the
spec's own choices (D1, D3, D4, and D6 for a fetch past 255; logs 2, 3, 6, 14): after NOT the machine has faulted, or the
very next step ends the run, in HALTED or in a fault. -/
def Obligations.NotUnderDefaultsEndsTheRun : Prop :=
  ∀ s t : State, s.cfg = Config.default → s.mem.read s.pc.toNat = 0x69 → step s = .next t →
    t.status = .faulted ∨ ∃ u, step t = .next u ∧ u.status ≠ .running

/-! Encoding (30_encoding.md) -/

/-- R64 (the byte values are the spec's default, from general knowledge, D1; log 2): the decoder reads
each row of the table as its instruction, whatever the operand bytes are. -/
def Obligations.TableWordsDecode : Prop :=
  ∀ a b : Byte,
    decode OpcodeMap.ls8 0x01 a b = .ok .hlt ∧ decode OpcodeMap.ls8 0x11 a b = .ok .ret ∧
    decode OpcodeMap.ls8 0x45 a b = .ok (.push a) ∧ decode OpcodeMap.ls8 0x46 a b = .ok (.pop a) ∧
    decode OpcodeMap.ls8 0x47 a b = .ok (.prn a) ∧ decode OpcodeMap.ls8 0x50 a b = .ok (.call a) ∧
    decode OpcodeMap.ls8 0x54 a b = .ok (.jmp a) ∧ decode OpcodeMap.ls8 0x55 a b = .ok (.jeq a) ∧
    decode OpcodeMap.ls8 0x56 a b = .ok (.jne a) ∧ decode OpcodeMap.ls8 0x69 a b = .ok (.not a) ∧
    decode OpcodeMap.ls8 0x82 a b = .ok (.ldi a b) ∧ decode OpcodeMap.ls8 0xA0 a b = .ok (.add a b) ∧
    decode OpcodeMap.ls8 0xA2 a b = .ok (.mul a b) ∧ decode OpcodeMap.ls8 0xA7 a b = .ok (.cmp a b) ∧
    decode OpcodeMap.ls8 0xA8 a b = .ok (.and a b) ∧ decode OpcodeMap.ls8 0xAA a b = .ok (.or a b) ∧
    decode OpcodeMap.ls8 0xAB a b = .ok (.xor a b)

/-- R60, R64, R65: under every legal `OPCODE_MAP`, decoding the encoding of any instruction, with any
operand bytes and whatever follows it in memory, gives the instruction back. -/
def Obligations.DecodeOfEncodeIsIdentity : Prop :=
  ∀ (m : OpcodeMap) (i : Instr) (tail rest : List Byte) (op a b : Byte),
    encode m i ++ tail = op :: a :: b :: rest → decode m op a b = .ok i

/-- R60, under every `OPCODE_MAP`: decoded bytes are an instruction whose encoding is the opcode byte and
the operand bytes after it, `(opcode >> 6) + 1` bytes in all, 1, 2 or 3 (so the same bytes never mean two
instructions); and a byte 0xC0 to 0xFF, whose bits [7:6] are 11, is no instruction. -/
def Obligations.InstructionLengthIsOperandFieldPlusOne : Prop :=
  ∀ (m : OpcodeMap) (op a b : Byte),
    (∀ i, decode m op a b = .ok i →
      encode m i = [op, a, b].take ((op >>> 6).toNat + 1) ∧ (op >>> 6).toNat + 1 ≤ 3) ∧
    (0xC0 ≤ op.toNat → decode m op a b = .error (.illegalOpcode op))

/-- R66 (the byte values are the spec's default, D1; log 2): under the default map the decoder accepts the 17 bytes of R64 and rejects every other byte by
name. -/
def Obligations.ExactlySeventeenOpcodesDecode : Prop :=
  ∀ op a b : Byte,
    ((∃ i, decode OpcodeMap.ls8 op a b = .ok i) ↔
      op ∈ [0x01, 0x11, 0x45, 0x46, 0x47, 0x50, 0x54, 0x55, 0x56, 0x69, 0x82, 0xA0, 0xA2, 0xA7, 0xA8,
        0xAA, 0xAB]) ∧
    ((¬ ∃ i, decode OpcodeMap.ls8 op a b = .ok i) →
      decode OpcodeMap.ls8 op a b = .error (.illegalOpcode op))

/-! Invariants -/

/-- R24 to R27, R32, R35, R160: every step keeps the invariant: memory in canonical form, pc at most
256, FL legal, a fault record exactly in FAULTED and legal for its kind and the instruction at pc.
Which faults exist, their data and their precision are the spec's own choices (D5 to D8, D22; logs 10,
13, 14). -/
def Obligations.StepKeepsInvariant : Prop :=
  ∀ s t : State, s.Inv → step s = .next t → t.Inv

/-- R36: the invariant holds after reset, and reset, host writes and start keep it. -/
def Obligations.ResetAndPortsKeepInvariant : Prop :=
  State.reset.Inv ∧
  ∀ (s : State) (a v : Byte), s.Inv → s.resetInput.Inv ∧ s.startInput.Inv ∧ (s.loadPort a v).Inv

/-- R189 (the spec's own choice of what counts as an end, D27): a run from a started state that meets
the invariant is, after any number of steps, halted without a fault record, faulted with one, or
unfinished and still RUNNING; and once it has ended, further steps change nothing. -/
def Obligations.RunEndsInExactlyOneWay : Prop :=
  ∀ (s : State) (k : Nat), s.Inv → s.status ≠ .idle →
    ((runEnd k s = .halted ∧ (runFor k s).status = .halted ∧ (runFor k s).fault = none) ∨
      (∃ f, runEnd k s = .faulted (some f) ∧ (runFor k s).status = .faulted ∧
        (runFor k s).fault = some f) ∨
      (runEnd k s = .unfinished ∧ (runFor k s).status = .running)) ∧
    (runEnd k s ≠ .unfinished → ∀ j, runFor (k + j) s = runFor k s)

/-! Reset, boot, ports (00_scope.md, 70_reset_and_hazards.md) -/

/-- R36, R180 (IDLE, the record and the trace are the spec's own choices, D5, D13, D14, D21): the value
of every piece of state after reset, whatever the state before it. -/
def Obligations.ResetLeavesEveryPieceOfState : Prop :=
  ∀ s : State,
    (∀ n, s.resetInput.mem.read n = 0) ∧
    (∀ r : Reg, s.resetInput.x[r] = if r = 7 then 0xF4 else 0) ∧
    s.resetInput.pc = 0 ∧ s.resetInput.fl = 0b000 ∧ s.resetInput.status = .idle ∧
    s.resetInput.fault = none ∧ s.resetInput.out = [] ∧
    State.reset.resetInput = State.reset

/-- R182 (the spec's own choice, D14, D19): booting an image of at most 256 bytes gives the launch state,
the image from address 0 and 0 above it; a longer image is a LoadError,
however many bytes the host has written by then (log 17). -/
def Obligations.BootGivesLaunchState : Prop :=
  ∀ (written : Nat) (s : State) (image : List Byte),
    (image.length ≤ 256 →
      ∃ t, bootImage written s image = { state := t, error := none } ∧
        (∀ n, t.mem.read n = image.getD n 0) ∧ t.mem.wf ∧
        (∀ r : Reg, t.x[r] = if r = 7 then 0xF4 else 0) ∧
        t.pc = 0 ∧ t.fl = 0b000 ∧ t.status = .running ∧ t.fault = none ∧ t.out = [] ∧ t.cfg = s.cfg) ∧
    (256 < image.length → (bootImage written s image).error = some .imageTooLong)

/-- R7, R47 (the ports are the spec's own choice, D14): a write on the load port stores its byte in IDLE
and is ignored in every other status. -/
def Obligations.LoadPortWritesOnlyInIdle : Prop :=
  ∀ (s : State) (a v : Byte),
    (s.status = .idle → ∀ n, (s.loadPort a v).mem.read n = if n = a.toNat then v else s.mem.read n) ∧
    (s.status ≠ .idle → s.loadPort a v = s)

/-- R7, R31, R160, R161 (codes and ports are the spec's own choice, D5, D14; log 13): the status port's
code in each of the four statuses, what the status and fault ports show after a fault, and fault_code 0
without one. -/
def Obligations.FaultPortsShowTheRecord : Prop :=
  (∀ s : State, s.statusPort = match s.status with
    | .idle => 0
    | .running => 1
    | .halted => 2
    | .faulted => 3) ∧
  (∀ (s : State) (k : FaultKind) (i : PcWord),
    (s.enterFault k i).statusPort = 3 ∧ (s.enterFault k i).faultPcPort = some s.pc ∧
    (s.enterFault k i).faultInfoPort = some i ∧
    (s.enterFault k i).faultCodePort = match k with
      | .illegalInstruction => 1
      | .outOfBoundsMemory => 2
      | .outOfBoundsRegister => 3
      | .stackOverflow => 4
      | .stackUnderflow => 5
      | .unsupportedOperation => 6
      | .loadError => 7) ∧
  ∀ s : State, s.fault = none → s.faultCodePort = 0

/-- R47, R173 (the length limit is the spec's own choice, D19; blanks and literals are the model's, log 12,
and so is the order of the causes, log 17): when the Loader reports LoadError, and why: a missing file, a
malformed line, or more than 256 bytes. A line is malformed whose value exceeds 255, or has before its
first `#` a character other than 0, 1 and blanks, a blank between digits, or no value at all. -/
def Obligations.LoadErrorHasThreeCauses : Prop :=
  (∀ (written : Nat) (s : State),
    (bootProgram written s none).error = some .missingFile ∧
    ∀ lines : List Line,
      ((bootProgram written s (some lines)).error = some .malformedLine ↔
        ∃ l ∈ lines, parseLine l = .error .malformedLine) ∧
      (∀ bytes, parseProgram lines = .ok bytes →
        ((bootProgram written s (some lines)).error = some .imageTooLong ↔ 256 < bytes.length)) ∧
      (bootProgram written s (some lines)).error ≠ some .missingFile) ∧
  (∀ before digits behind comment : Line, BlankLine before → DigitLine digits → digits ≠ [] →
    BlankLine behind → comment = [] ∨ comment.head? = some '#' →
    parseLine (before ++ digits ++ behind ++ comment) =
      if digits.foldl (fun n c => 2 * n + if c = '1' then 1 else 0) 0 ≤ 255 then
        .ok (some (BitVec.ofNat 8 (digits.foldl (fun n c => 2 * n + if c = '1' then 1 else 0) 0)))
      else .error .malformedLine) ∧
  (∀ (before after : Line) (c : Char), '#' ∉ before → c ∉ ['0', '1', ' ', '\t', '\r', '#'] →
    parseLine (before ++ c :: after) = .error .malformedLine) ∧
  (∀ (before blanks after : Line) (d e : Char), '#' ∉ before → d = '0' ∨ d = '1' →
    BlankLine blanks → blanks ≠ [] → e = '0' ∨ e = '1' →
    parseLine (before ++ d :: blanks ++ e :: after) = .error .malformedLine) ∧
  ∀ blanks comment : Line, BlankLine blanks → blanks ≠ [] →
    parseLine (blanks ++ '#' :: comment) = .error .malformedLine

/-- R47, R69 (the model's reading of blanks, log 12): the line of a byte's eight binary digits, most
significant first, is that byte, alone or with an inline comment behind it, with or without a blank
between; a line that begins with `#`, and a line of blanks or of nothing, is no byte; and program text
gives its bytes in file order, wherever such lines stand in it. -/
def Obligations.BinaryLineIsItsByte : Prop :=
  (∀ (b : Byte) (comment : Line),
    parseLine (binaryLine b) = .ok (some b) ∧
    parseLine (binaryLine b ++ '#' :: comment) = .ok (some b) ∧
    parseLine (binaryLine b ++ ' ' :: '#' :: comment) = .ok (some b)) ∧
  (∀ comment : Line, parseLine ('#' :: comment) = .ok none) ∧
  (∀ l : Line, BlankLine l → parseLine l = .ok none) ∧
  (∀ bytes : List Byte, parseProgram (bytes.map binaryLine) = .ok bytes) ∧
  ∀ (l : Line) (above below : List Line), BlankLine l ∨ l.head? = some '#' →
    parseProgram (above ++ l :: below) = parseProgram (above ++ below)

/-! Decoding under every map (30_encoding.md) -/

/-- R65, under every legal `OPCODE_MAP`: exactly one row matches an opcode byte, or none. If one does, the
decoder gives its instruction whatever the bytes behind it, `(opcode >> 6) + 1` bytes long; if none does,
it rejects the byte. -/
def Obligations.OneRowMatchesOrNone : Prop :=
  ∀ (m : OpcodeMap) (op : Byte),
    (∃ k, m.byteOf k = op ∧ (∀ j, m.byteOf j = op → j = k) ∧
      ∀ a b : Byte, ∃ i, decode m op a b = .ok i ∧ i.mnemonic = k ∧
        (encode m i).length = (op >>> 6).toNat + 1) ∨
    ((∀ k, m.byteOf k ≠ op) ∧ ∀ a b : Byte, decode m op a b = .error (.illegalOpcode op))

/-! After a LoadError (60_exceptions.md R173, 95_test_vectors.md E3) -/

/-- R173, E3 (IDLE and `start` are the spec's own choice, D14; a too long image, D19): after a LoadError
the core is IDLE, takes no step, and is as `reset` leaves it but for its memory; for a missing file its
memory too, every byte 0. For a malformed line or a too long image the spec leaves open how many bytes are
in memory by then: for every number the host chooses (log 17), memory holds that many of the text's leading
bytes from address 0, at most 256, and 0 elsewhere. `start` is given exactly when there is no LoadError. -/
def Obligations.LoadErrorLeavesCoreIdle : Prop :=
  ∀ (written : Nat) (s : State),
    bootProgram written s none = { state := s.resetInput, error := some .missingFile } ∧
    (∀ n, (bootProgram written s none).state.mem.read n = 0) ∧
    (∀ text, (bootProgram written s text).error ≠ none →
      (bootProgram written s text).state.status = .idle ∧
      (∀ t, step (bootProgram written s text).state ≠ .next t) ∧
      (bootProgram written s text).state =
        { s.resetInput with mem := (bootProgram written s text).state.mem } ∧
      (bootProgram written s text).state.mem.wf) ∧
    (∀ lines, (bootProgram written s (some lines)).error ≠ none →
      ∀ n, (bootProgram written s (some lines)).state.mem.read n =
        if n < written ∧ n < 256 then (parsedBytes lines).getD n 0 else 0) ∧
    ∀ text, (bootProgram written s text).error = none ↔
      (bootProgram written s text).state.status = .running
end

