-- ==== Sys2Proof/Laws/Decode.lean ====
section
/-! SUPPORT. The opcode map (spec/30_encoding.md R64, R65): looking up the byte of a mnemonic finds that
mnemonic, a mnemonic found has that byte, and the byte carries the operand count. -/

namespace Sys2Proof

theorem Mnemonic.mem_all (k : Mnemonic) : k ∈ Mnemonic.all := by cases k <;> decide

theorem OpcodeMap.byteOf_inj (m : OpcodeMap) {j k : Mnemonic} (h : m.byteOf j = m.byteOf k) : j = k :=
  List.inj_on_of_nodup_map m.legal.1 j.mem_all k.mem_all h

/-- One row matches a byte of the map (R65). -/
@[simp] theorem OpcodeMap.mnemonicOf_byteOf (m : OpcodeMap) (k : Mnemonic) :
    m.mnemonicOf (m.byteOf k) = some k := by
  unfold OpcodeMap.mnemonicOf
  cases h : Mnemonic.all.find? fun j => decide (m.byteOf j = m.byteOf k) with
  | none => exact absurd (decide_eq_true rfl) (List.find?_eq_none.mp h k k.mem_all)
  | some j =>
    have hj : m.byteOf j = m.byteOf k := by simpa using List.find?_some h
    rw [m.byteOf_inj hj]

theorem OpcodeMap.byteOf_of_mnemonicOf {m : OpcodeMap} {op : Byte} {k : Mnemonic}
    (h : m.mnemonicOf op = some k) : m.byteOf k = op := by
  simpa using List.find?_some h

theorem operandField_eq (op : Byte) : operandField op = op.toNat / 64 := by
  simp [operandField, Nat.shiftRight_eq_div_pow]

/-- The bits [7:6] of a legal opcode are the operand count of R62. -/
@[simp] theorem OpcodeMap.operandField_byteOf (m : OpcodeMap) (k : Mnemonic) :
    operandField (m.byteOf k) = k.operandCount :=
  (operandField_eq _).trans (m.legal.2 k k.mem_all)

@[simp] theorem OpcodeMap.instrLength_byteOf (m : OpcodeMap) (k : Mnemonic) :
    instrLength (m.byteOf k) = k.operandCount + 1 := by
  simp [instrLength]

@[simp] theorem mnemonic_assemble (k : Mnemonic) (a b : Byte) : (assemble k a b).mnemonic = k := by
  cases k <;> rfl

/-- What the decoder answers: the assembled instruction of the one matching row, or the byte rejected. -/
theorem decode_cases (m : OpcodeMap) (op a b : Byte) :
    (∃ k, m.byteOf k = op ∧ decode m op a b = .ok (assemble k a b)) ∨
      (m.mnemonicOf op = none ∧ decode m op a b = .error (.illegalOpcode op)) := by
  unfold decode
  cases h : m.mnemonicOf op with
  | none => exact .inr ⟨rfl, rfl⟩
  | some k => exact .inl ⟨k, OpcodeMap.byteOf_of_mnemonicOf h, rfl⟩

end Sys2Proof
end

