-- ==== Sys2Proof/Laws/Memory.lean ====
section
/-! SUPPORT. The laws of memory (spec/20_memory.md R40, R42): every operation keeps the canonical form,
and what a read gives after each of them. -/

namespace Sys2Proof.Machine

theorem Memory.read_erase (m : Memory) (a b : Nat) :
    (m.erase a).read b = if b = a then unlistedByte else m.read b := by
  induction m with
  | nil => simp [Memory.erase, Memory.read]
  | cons c rest ih =>
    obtain ⟨k, w⟩ := c
    simp only [Memory.erase, List.filter_cons, decide_eq_true_eq] at ih ⊢
    by_cases hk : k = a
    · subst hk
      simp only [ne_eq, not_true_eq_false, if_false, ih, Memory.read]
      split <;> simp_all [eq_comm]
    · simp only [ne_eq, hk, not_false_eq_true, if_true, Memory.read, ih]
      by_cases hb : k = b
      · subst hb; simp [hk]
      · simp [hb]

theorem Memory.read_insert (m : Memory) (a b : Nat) (v : Byte) (h : ∀ c ∈ m, c.1 ≠ a) :
    (Memory.insert a v m).read b = if b = a then v else m.read b := by
  induction m with
  | nil => simp [Memory.insert, Memory.read, eq_comm]
  | cons c rest ih =>
    obtain ⟨k, w⟩ := c
    have hk : k ≠ a := h (k, w) List.mem_cons_self
    have ih := ih fun c hc => h c (List.mem_cons_of_mem _ hc)
    simp only [Memory.insert]
    split
    · rw [Memory.read]
      by_cases hb : b = a
      · simp [hb]
      · simp [hb, Ne.symm hb]
    · simp only [Memory.read, ih]
      by_cases hb : k = b
      · subst hb; simp [hk]
      · simp [hb]

/-- A read gives the byte last written to the same address, and a write leaves every other address
alone (R42). It holds of every memory, canonical or not. -/
theorem Memory.read_write (m : Memory) (a b : Nat) (v : Byte) :
    (m.write a v).read b = if b = a then v else m.read b := by
  unfold Memory.write
  split
  · simp_all [Memory.read_erase]
  · rw [Memory.read_insert _ _ _ _ (by simp [Memory.erase]), Memory.read_erase]
    split <;> simp_all

theorem Memory.mem_insert {m : Memory} {a : Nat} {v : Byte} {c : Host.Cell} :
    c ∈ Memory.insert a v m ↔ c = (a, v) ∨ c ∈ m := by
  induction m with
  | nil => simp [Memory.insert]
  | cons d rest ih =>
    simp only [Memory.insert]
    split
    · simp
    · simp only [List.mem_cons, ih]; tauto

theorem Memory.erase_wf {m : Memory} (h : m.wf) (a : Nat) : (m.erase a).wf :=
  ⟨h.1.filter _, fun c hc => h.2 c (List.mem_of_mem_filter hc)⟩

theorem Memory.insert_wf {m : Memory} (h : m.wf) {a : Nat} {v : Byte} (ha : a < 256)
    (hv : v ≠ unlistedByte) (hn : ∀ c ∈ m, c.1 ≠ a) : (Memory.insert a v m).wf := by
  refine ⟨?_, fun c hc => ?_⟩
  · induction m with
    | nil => simp [Memory.insert]
    | cons d rest ih =>
      obtain ⟨k, w⟩ := d
      have hp := List.pairwise_cons.mp h.1
      have hk : k ≠ a := hn (k, w) List.mem_cons_self
      simp only [Memory.insert]
      split
      · refine List.pairwise_cons.mpr ⟨fun c hc => ?_, h.1⟩
        rcases List.mem_cons.mp hc with rfl | hc
        · assumption
        · exact lt_trans ‹_› (hp.1 c hc)
      · have hr : Memory.wf rest := ⟨hp.2, fun c hc => h.2 c (List.mem_cons_of_mem _ hc)⟩
        refine List.pairwise_cons.mpr
          ⟨fun c hc => ?_, ih hr fun c hc => hn c (List.mem_cons_of_mem _ hc)⟩
        rcases Memory.mem_insert.mp hc with rfl | hc
        · simp only; omega
        · exact hp.1 c hc
  · rcases Memory.mem_insert.mp hc with rfl | hc
    · exact ⟨ha, hv⟩
    · exact h.2 c hc

/-- A write to an existing address keeps the canonical form. -/
theorem Memory.write_wf {m : Memory} (h : m.wf) {a : Nat} (ha : a < 256) (v : Byte) :
    (m.write a v).wf := by
  unfold Memory.write
  split
  · exact Memory.erase_wf h a
  · exact Memory.insert_wf (Memory.erase_wf h a) ha ‹_› (by simp [Memory.erase])

theorem State.load_store (s : State) (a b v : Byte) :
    (s.store a v).load b = if b = a then v else s.load b := by
  simp [State.load, State.store, Memory.read_write, BitVec.toNat_inj]

theorem State.store_wf {s : State} (h : s.mem.wf) (a v : Byte) : (s.store a v).mem.wf :=
  Memory.write_wf h a.isLt v

theorem State.loadPort_wf {s : State} (h : s.mem.wf) (a v : Byte) : (s.loadPort a v).mem.wf := by
  unfold State.loadPort
  split
  · exact State.store_wf h a v
  all_goals exact h

theorem State.loadBytes_wf {s : State} (h : s.mem.wf) (a : Nat) (bs : List Byte) :
    (s.loadBytes a bs).mem.wf := by
  induction bs generalizing s a with
  | nil => exact h
  | cons b rest ih => exact ih (State.loadPort_wf h _ b) _

theorem State.placeByte_wf {s : State} (h : s.mem.wf) (a : Nat) (v : Byte) :
    (s.placeByte a v).mem.wf := by
  unfold State.placeByte
  split
  · exact Memory.write_wf h (by omega) v
  · exact h

theorem State.placeWord_wf {s : State} (h : s.mem.wf) (nbits w : Nat) : (s.placeWord nbits w).mem.wf :=
  State.placeByte_wf (State.placeByte_wf (State.placeByte_wf h _ _) _ _) _ _

theorem State.reset_mem_wf : State.reset.mem.wf := by decide

end Sys2Proof.Machine
end

