-- ==== Sys2Proof/Laws/State.lean ====
section
/-! SUPPORT. One lemma per field per update of State, each true by rfl: a proof reads a field of an updated
state without unfolding the update. -/

namespace Sys2Proof.Machine

variable (s : State)

@[simp] theorem State.setReg_x (r : Reg) (v : Byte) : (s.setReg r v).x = s.x.set r v := rfl
@[simp] theorem State.setReg_pc (r : Reg) (v : Byte) : (s.setReg r v).pc = s.pc := rfl
@[simp] theorem State.setReg_fl (r : Reg) (v : Byte) : (s.setReg r v).fl = s.fl := rfl
@[simp] theorem State.setReg_mem (r : Reg) (v : Byte) : (s.setReg r v).mem = s.mem := rfl
@[simp] theorem State.setReg_status (r : Reg) (v : Byte) : (s.setReg r v).status = s.status := rfl
@[simp] theorem State.setReg_fault (r : Reg) (v : Byte) : (s.setReg r v).fault = s.fault := rfl
@[simp] theorem State.setReg_out (r : Reg) (v : Byte) : (s.setReg r v).out = s.out := rfl
@[simp] theorem State.setReg_cfg (r : Reg) (v : Byte) : (s.setReg r v).cfg = s.cfg := rfl

@[simp] theorem State.store_x (a v : Byte) : (s.store a v).x = s.x := rfl
@[simp] theorem State.store_pc (a v : Byte) : (s.store a v).pc = s.pc := rfl
@[simp] theorem State.store_fl (a v : Byte) : (s.store a v).fl = s.fl := rfl
@[simp] theorem State.store_mem (a v : Byte) : (s.store a v).mem = s.mem.write a.toNat v := rfl
@[simp] theorem State.store_status (a v : Byte) : (s.store a v).status = s.status := rfl
@[simp] theorem State.store_fault (a v : Byte) : (s.store a v).fault = s.fault := rfl
@[simp] theorem State.store_out (a v : Byte) : (s.store a v).out = s.out := rfl
@[simp] theorem State.store_cfg (a v : Byte) : (s.store a v).cfg = s.cfg := rfl

@[simp] theorem State.setPc_x (p : PcWord) : (s.setPc p).x = s.x := rfl
@[simp] theorem State.setPc_pc (p : PcWord) : (s.setPc p).pc = p := rfl
@[simp] theorem State.setPc_fl (p : PcWord) : (s.setPc p).fl = s.fl := rfl
@[simp] theorem State.setPc_mem (p : PcWord) : (s.setPc p).mem = s.mem := rfl
@[simp] theorem State.setPc_status (p : PcWord) : (s.setPc p).status = s.status := rfl
@[simp] theorem State.setPc_fault (p : PcWord) : (s.setPc p).fault = s.fault := rfl
@[simp] theorem State.setPc_out (p : PcWord) : (s.setPc p).out = s.out := rfl
@[simp] theorem State.setPc_cfg (p : PcWord) : (s.setPc p).cfg = s.cfg := rfl

@[simp] theorem State.setFl_x (f : FlagWord) : (s.setFl f).x = s.x := rfl
@[simp] theorem State.setFl_pc (f : FlagWord) : (s.setFl f).pc = s.pc := rfl
@[simp] theorem State.setFl_fl (f : FlagWord) : (s.setFl f).fl = f := rfl
@[simp] theorem State.setFl_mem (f : FlagWord) : (s.setFl f).mem = s.mem := rfl
@[simp] theorem State.setFl_status (f : FlagWord) : (s.setFl f).status = s.status := rfl
@[simp] theorem State.setFl_fault (f : FlagWord) : (s.setFl f).fault = s.fault := rfl
@[simp] theorem State.setFl_out (f : FlagWord) : (s.setFl f).out = s.out := rfl
@[simp] theorem State.setFl_cfg (f : FlagWord) : (s.setFl f).cfg = s.cfg := rfl

@[simp] theorem State.emit_x (v : Byte) : (s.emit v).x = s.x := rfl
@[simp] theorem State.emit_pc (v : Byte) : (s.emit v).pc = s.pc := rfl
@[simp] theorem State.emit_fl (v : Byte) : (s.emit v).fl = s.fl := rfl
@[simp] theorem State.emit_mem (v : Byte) : (s.emit v).mem = s.mem := rfl
@[simp] theorem State.emit_status (v : Byte) : (s.emit v).status = s.status := rfl
@[simp] theorem State.emit_fault (v : Byte) : (s.emit v).fault = s.fault := rfl
@[simp] theorem State.emit_out (v : Byte) : (s.emit v).out = s.out ++ [v] := rfl
@[simp] theorem State.emit_cfg (v : Byte) : (s.emit v).cfg = s.cfg := rfl

@[simp] theorem State.halt_x : s.halt.x = s.x := rfl
@[simp] theorem State.halt_pc : s.halt.pc = s.pc := rfl
@[simp] theorem State.halt_fl : s.halt.fl = s.fl := rfl
@[simp] theorem State.halt_mem : s.halt.mem = s.mem := rfl
@[simp] theorem State.halt_status : s.halt.status = .halted := rfl
@[simp] theorem State.halt_fault : s.halt.fault = s.fault := rfl
@[simp] theorem State.halt_out : s.halt.out = s.out := rfl
@[simp] theorem State.halt_cfg : s.halt.cfg = s.cfg := rfl

@[simp] theorem State.advance_x (k : Mnemonic) : (s.advance k).x = s.x := rfl
@[simp] theorem State.advance_pc (k : Mnemonic) : (s.advance k).pc = s.pc + BitVec.ofNat 9 (instrLength (s.cfg.opcodes.byteOf k)) := rfl
@[simp] theorem State.advance_fl (k : Mnemonic) : (s.advance k).fl = s.fl := rfl
@[simp] theorem State.advance_mem (k : Mnemonic) : (s.advance k).mem = s.mem := rfl
@[simp] theorem State.advance_status (k : Mnemonic) : (s.advance k).status = s.status := rfl
@[simp] theorem State.advance_fault (k : Mnemonic) : (s.advance k).fault = s.fault := rfl
@[simp] theorem State.advance_out (k : Mnemonic) : (s.advance k).out = s.out := rfl
@[simp] theorem State.advance_cfg (k : Mnemonic) : (s.advance k).cfg = s.cfg := rfl

@[simp] theorem State.decSp_x : s.decSp.x = s.x.set 7 (s.sp - 1) := rfl
@[simp] theorem State.decSp_pc : s.decSp.pc = s.pc := rfl
@[simp] theorem State.decSp_fl : s.decSp.fl = s.fl := rfl
@[simp] theorem State.decSp_mem : s.decSp.mem = s.mem := rfl
@[simp] theorem State.decSp_status : s.decSp.status = s.status := rfl
@[simp] theorem State.decSp_fault : s.decSp.fault = s.fault := rfl
@[simp] theorem State.decSp_out : s.decSp.out = s.out := rfl
@[simp] theorem State.decSp_cfg : s.decSp.cfg = s.cfg := rfl

@[simp] theorem State.incSp_x : s.incSp.x = s.x.set 7 (s.sp + 1) := rfl
@[simp] theorem State.incSp_pc : s.incSp.pc = s.pc := rfl
@[simp] theorem State.incSp_fl : s.incSp.fl = s.fl := rfl
@[simp] theorem State.incSp_mem : s.incSp.mem = s.mem := rfl
@[simp] theorem State.incSp_status : s.incSp.status = s.status := rfl
@[simp] theorem State.incSp_fault : s.incSp.fault = s.fault := rfl
@[simp] theorem State.incSp_out : s.incSp.out = s.out := rfl
@[simp] theorem State.incSp_cfg : s.incSp.cfg = s.cfg := rfl

@[simp] theorem State.enterFault_x (k : FaultKind) (i : PcWord) : (s.enterFault k i).x = s.x := rfl
@[simp] theorem State.enterFault_pc (k : FaultKind) (i : PcWord) : (s.enterFault k i).pc = s.pc := rfl
@[simp] theorem State.enterFault_fl (k : FaultKind) (i : PcWord) : (s.enterFault k i).fl = s.fl := rfl
@[simp] theorem State.enterFault_mem (k : FaultKind) (i : PcWord) : (s.enterFault k i).mem = s.mem := rfl
@[simp] theorem State.enterFault_status (k : FaultKind) (i : PcWord) : (s.enterFault k i).status = .faulted := rfl
@[simp] theorem State.enterFault_fault (k : FaultKind) (i : PcWord) : (s.enterFault k i).fault = some { kind := k, fpc := s.pc, info := i } := rfl
@[simp] theorem State.enterFault_out (k : FaultKind) (i : PcWord) : (s.enterFault k i).out = s.out := rfl
@[simp] theorem State.enterFault_cfg (k : FaultKind) (i : PcWord) : (s.enterFault k i).cfg = s.cfg := rfl

/-! Registers -/

theorem State.reg_setReg (r q : Reg) (v : Byte) :
    (s.setReg r v).reg q = if q = r then v else s.reg q := by
  by_cases h : q = r
  · subst h; simp [State.reg, State.setReg]
  · have : (r : Nat) ≠ q := fun e => h (Fin.ext e.symm)
    simp [State.reg, State.setReg, h, this]

@[simp] theorem State.reg_setReg_self (r : Reg) (v : Byte) : (s.setReg r v).reg r = v := by
  simp [State.reg_setReg]

theorem State.reg_setReg_of_ne {r q : Reg} (h : q ≠ r) (v : Byte) : (s.setReg r v).reg q = s.reg q := by
  simp [State.reg_setReg, h]

@[simp] theorem State.sp_decSp : s.decSp.sp = s.sp - 1 := by simp [State.decSp, State.sp]

@[simp] theorem State.sp_incSp : s.incSp.sp = s.sp + 1 := by simp [State.incSp, State.sp]

@[simp] theorem State.pushAddr_eq : s.pushAddr = s.sp - 1 := s.sp_decSp

@[simp] theorem State.store_reg (a v : Byte) (r : Reg) : (s.store a v).reg r = s.reg r := rfl
@[simp] theorem State.store_sp (a v : Byte) : (s.store a v).sp = s.sp := rfl
@[simp] theorem State.setPc_reg (p : PcWord) (r : Reg) : (s.setPc p).reg r = s.reg r := rfl
@[simp] theorem State.setPc_sp (p : PcWord) : (s.setPc p).sp = s.sp := rfl
@[simp] theorem State.setFl_reg (f : FlagWord) (r : Reg) : (s.setFl f).reg r = s.reg r := rfl
@[simp] theorem State.setFl_sp (f : FlagWord) : (s.setFl f).sp = s.sp := rfl
@[simp] theorem State.emit_reg (v : Byte) (r : Reg) : (s.emit v).reg r = s.reg r := rfl
@[simp] theorem State.emit_sp (v : Byte) : (s.emit v).sp = s.sp := rfl
@[simp] theorem State.halt_reg (r : Reg) : s.halt.reg r = s.reg r := rfl
@[simp] theorem State.halt_sp : s.halt.sp = s.sp := rfl
@[simp] theorem State.advance_reg (k : Mnemonic) (r : Reg) : (s.advance k).reg r = s.reg r := rfl
@[simp] theorem State.advance_sp (k : Mnemonic) : (s.advance k).sp = s.sp := rfl
@[simp] theorem State.enterFault_reg (k : FaultKind) (i : PcWord) (r : Reg) : (s.enterFault k i).reg r = s.reg r := rfl
@[simp] theorem State.enterFault_sp (k : FaultKind) (i : PcWord) : (s.enterFault k i).sp = s.sp := rfl

end Sys2Proof.Machine
end

