-- ==== Sys2Proof/Laws/Ops.lean ====
section
/-! SUPPORT. For each shared operation, what it can do, said once. -/

namespace Sys2Proof.Machine

/-- The sequential advance in the form the instruction rules give it: pc + 1, + 2 or + 3 (R85). -/
theorem State.advance_pc_length (s : State) (k : Mnemonic) :
    (s.advance k).pc = s.pc + BitVec.ofNat 9 (k.operandCount + 1) := by
  simp [State.advance]

/-- Taking a fault always answers a next state, FAULTED, with everything else as before (R162). -/
theorem raise_eq (k : FaultKind) (i : PcWord) (s : State) :
    raise k i s = .next { s with status := .faulted, fault := some ⟨k, s.pc, i⟩ } := rfl

section Operands
variable {s t : State}

theorem withReg_of_lt {b : Byte} (h : b.toNat < 8) (k : Reg → Result) :
    withReg b s k = k ⟨b.toNat, h⟩ := by simp [withReg, h]

theorem withReg_of_ge {b : Byte} (h : 8 ≤ b.toNat) (k : Reg → Result) :
    withReg b s k = raise .outOfBoundsRegister (zext9 b) s := by simp [withReg, Nat.not_lt.mpr h]

/-- A register index as an operand byte passes the check and is that register (R83). -/
@[simp] theorem withReg_ofNat (r : Reg) (k : Reg → Result) :
    withReg (regByte r) s k = k r := by
  have hr : (regByte r).toNat = r := by simp; omega
  rw [withReg_of_lt (by rw [hr]; exact r.isLt)]
  exact congrArg k (Fin.ext hr)

/-- What a register operand can do: raise OutOfBounds, or go on with the register it names. -/
theorem withReg_cases (b : Byte) (s : State) (k : Reg → Result) :
    (8 ≤ b.toNat ∧ withReg b s k = raise .outOfBoundsRegister (zext9 b) s) ∨
      ∃ r : Reg, b.toNat = r ∧ withReg b s k = k r := by
  by_cases h : b.toNat < 8
  · exact .inr ⟨⟨b.toNat, h⟩, rfl, withReg_of_lt h k⟩
  · exact .inl ⟨Nat.not_lt.mp h, withReg_of_ge (Nat.not_lt.mp h) k⟩

/-- What two register operands can do: the first check that fails faults (R165). -/
theorem withRegs_cases (a b : Byte) (s : State) (k : Reg → Reg → Result) :
    (8 ≤ a.toNat ∧ withRegs a b s k = raise .outOfBoundsRegister (zext9 a) s) ∨
      (8 ≤ b.toNat ∧ withRegs a b s k = raise .outOfBoundsRegister (zext9 b) s) ∨
      ∃ p q : Reg, a.toNat = p ∧ b.toNat = q ∧ withRegs a b s k = k p q := by
  rcases withReg_cases a s (fun p => withReg b s fun q => k p q) with ⟨ha, h⟩ | ⟨p, hp, h⟩
  · exact .inl ⟨ha, h⟩
  · rcases withReg_cases b s (fun q => k p q) with ⟨hb, h'⟩ | ⟨q, hq, h'⟩
    · exact .inr (.inl ⟨hb, h.trans h'⟩)
    · exact .inr (.inr ⟨p, q, hp, hq, h.trans h'⟩)

theorem withByte_of_le {a : Nat} (h : a ≤ 255) (k : Byte → Result) :
    withByte a s k = k (s.mem.read a) := by simp [withByte, h]

theorem withByte_of_gt {a : Nat} (h : 255 < a) (k : Byte → Result) :
    withByte a s k = raise .outOfBoundsMemory (BitVec.ofNat 9 a) s := by
  simp [withByte, Nat.not_le.mpr h]

theorem withPushRoom_of_ne (h : s.sp ≠ 0) (k : Result) : withPushRoom s k = k := if_neg h

theorem withPushRoom_of_eq (h : s.sp = 0) (k : Result) :
    withPushRoom s k = raise .stackOverflow 0 s := by simp [withPushRoom, h]

theorem withPopped_of_ne (h : s.sp ≠ 255) (k : Byte → Result) :
    withPopped s k = k (s.load s.sp) := if_neg h

theorem withPopped_of_eq (h : s.sp = 255) (k : Byte → Result) :
    withPopped s k = raise .stackUnderflow 255 s := by simp [withPopped, h]

/-- What the fetch can do (R81): with pc ≤ 253 it reads three bytes, otherwise it raises OutOfBounds at
the first address past 255. -/
theorem fetch_cases (s : State) (k : Byte → Byte → Byte → Result) :
    (s.pc.toNat ≤ 253 ∧ fetch s k =
      k (s.mem.read s.pc.toNat) (s.mem.read (s.pc.toNat + 1)) (s.mem.read (s.pc.toNat + 2))) ∨
      (254 ≤ s.pc.toNat ∧
        fetch s k = raise .outOfBoundsMemory (BitVec.ofNat 9 (max s.pc.toNat 256)) s) := by
  by_cases h2 : s.pc.toNat ≤ 253
  · refine .inl ⟨h2, ?_⟩
    simp [fetch, withByte, show s.pc.toNat ≤ 255 by omega, show s.pc.toNat + 1 ≤ 255 by omega,
      show s.pc.toNat + 2 ≤ 255 by omega]
  · refine .inr ⟨by omega, ?_⟩
    by_cases h0 : s.pc.toNat ≤ 255
    · rw [show max s.pc.toNat 256 = 256 by omega]
      by_cases h1 : s.pc.toNat + 1 ≤ 255
      · simp [fetch, withByte, show s.pc.toNat = 254 by omega]
      · simp [fetch, withByte, show s.pc.toNat = 255 by omega]
    · rw [show max s.pc.toNat 256 = s.pc.toNat by omega]
      simp [fetch, withByte, h0]

end Operands

/-- The flags of a compare are one of the three values of R27. -/
theorem compareFlags_cases (u v : Byte) :
    (u.toNat = v.toNat ∧ compareFlags u v = flagEqual) ∨
      (v.toNat < u.toNat ∧ compareFlags u v = flagGreater) ∨
      (u.toNat < v.toNat ∧ compareFlags u v = flagLess) := by
  unfold compareFlags
  rcases lt_trichotomy u.toNat v.toNat with h | h | h
  · exact .inr (.inr ⟨h, by simp [h.ne, h.le.not_gt]⟩)
  · exact .inl ⟨h, by simp [h]⟩
  · exact .inr (.inl ⟨h, by simp [h.ne', h]⟩)

/-- What a step can do: it exists only while RUNNING, and then the fetch faults, or the opcode is
illegal, or the decoded instruction is executed. -/
theorem step_next {s t : State} (h : step s = .next t) :
    s.status = .running ∧
      ((254 ≤ s.pc.toNat ∧ t = s.enterFault .outOfBoundsMemory (BitVec.ofNat 9 (max s.pc.toNat 256))) ∨
        (s.pc.toNat ≤ 253 ∧ s.cfg.opcodes.mnemonicOf (s.mem.read s.pc.toNat) = none ∧
          t = s.enterFault .illegalInstruction (zext9 (s.mem.read s.pc.toNat))) ∨
        (s.pc.toNat ≤ 253 ∧ ∃ k, s.cfg.opcodes.byteOf k = s.mem.read s.pc.toNat ∧
          exec (assemble k (s.mem.read (s.pc.toNat + 1)) (s.mem.read (s.pc.toNat + 2))) s = .next t)) := by
  unfold step at h
  split at h <;> first | contradiction | skip
  refine ⟨‹_›, ?_⟩
  unfold stepRunning at h
  rcases fetch_cases s _ with ⟨hpc, hf⟩ | ⟨hpc, hf⟩
  · rw [hf] at h
    rcases decode_cases s.cfg.opcodes (s.mem.read s.pc.toNat) (s.mem.read (s.pc.toNat + 1))
      (s.mem.read (s.pc.toNat + 2)) with ⟨k, hk, hd⟩ | ⟨hn, hd⟩
    · rw [hd] at h
      exact .inr (.inr ⟨hpc, k, hk, h⟩)
    · rw [hd] at h
      exact .inr (.inl ⟨hpc, hn, (Host.Outcome.next.inj h).symm⟩)
  · rw [hf] at h
    exact .inl ⟨hpc, (Host.Outcome.next.inj h).symm⟩

end Sys2Proof.Machine
end

