-- ==== Sys2Proof/Laws/Exec.lean ====
section
/-! SUPPORT. What executing an instruction can do, said once for each instruction: it raises one of the
faults of spec/60_exceptions.md R160, changing nothing else, or it has the effect of its rule. -/

namespace Sys2Proof.Machine

/-- The faults an instruction itself can raise, with what R160 says of their datum. The case of memory
is NOT's read at pc+2, which a step never reaches past 255 (its fetch faults first, R81). -/
def ExecRaises (s : State) (k : FaultKind) (info : PcWord) : Prop :=
  (k = .outOfBoundsRegister ∧ 8 ≤ info.toNat ∧ info.toNat ≤ 255) ∨
    (k = .stackOverflow ∧ info = 0) ∨
    (k = .stackUnderflow ∧ info.toNat ≤ 255) ∨
    (k = .outOfBoundsMemory ∧ 254 ≤ s.pc.toNat)

/-- The effect of each instruction where it raises nothing, from its rule. -/
abbrev Effect (i : Instr) (s t : State) : Prop :=
  match i with
  | .hlt => t = s.halt.advance .hlt
  | .ret => s.sp ≠ 255 ∧ t = (s.setPc (zext9 (s.load s.sp))).incSp
  | .push a => ∃ r, a = regByte r ∧ s.sp ≠ 0 ∧
      t = (s.decSp.store s.pushAddr (s.decSp.reg r)).advance .push
  | .pop a => ∃ r, a = regByte r ∧ s.sp ≠ 255 ∧ (r = spReg → s.load s.sp ≠ 255) ∧
      t = (s.setReg r (s.load s.sp)).incSp.advance .pop
  | .prn a => ∃ r, a = regByte r ∧ t = (s.emit (s.reg r)).advance .prn
  | .call a => ∃ r, a = regByte r ∧ s.sp ≠ 0 ∧
      t = (s.decSp.store s.pushAddr (s.nextPc.setWidth 8)).setPc (zext9 (s.decSp.reg r))
  | .jmp a => ∃ r, a = regByte r ∧ t = s.setPc (zext9 (s.reg r))
  | .jeq a => ∃ r, a = regByte r ∧ t = s.setPc (if s.fl = flagEqual then zext9 (s.reg r) else s.nextPc)
  | .jne a => ∃ r, a = regByte r ∧ t = s.setPc (if s.fl = flagEqual then s.nextPc else zext9 (s.reg r))
  | .not a => ∃ r v, a = regByte r ∧ t = (s.setReg r v).advance .not ∧
      match s.cfg.notSemantics with
      | .referenceInequality => ∃ q, s.pc.toNat ≤ 253 ∧ s.mem.read (s.pc.toNat + 2) = regByte q ∧
          v = aluDiffers (s.reg r) (s.reg q)
      | .onesComplement => v = ~~~ s.reg r
  | .ldi a v => ∃ r, a = regByte r ∧ t = (s.setReg r v).advance .ldi
  | .add a b => ∃ p q, a = regByte p ∧ b = regByte q ∧
      t = (s.setReg p (aluAdd (s.reg p) (s.reg q))).advance .add
  | .mul a b => ∃ p q, a = regByte p ∧ b = regByte q ∧
      t = (s.setReg p (aluMul (s.reg p) (s.reg q))).advance .mul
  | .cmp a b => ∃ p q, a = regByte p ∧ b = regByte q ∧
      t = (s.setFl (compareFlags (s.reg p) (s.reg q))).advance .cmp
  | .and a b => ∃ p q, a = regByte p ∧ b = regByte q ∧
      t = (s.setReg p (s.reg p &&& s.reg q)).advance .and
  | .or a b => ∃ p q, a = regByte p ∧ b = regByte q ∧
      t = (s.setReg p (s.reg p ||| s.reg q)).advance .or
  | .xor a b => ∃ p q, a = regByte p ∧ b = regByte q ∧
      t = (s.setReg p (s.reg p ^^^ s.reg q)).advance .xor

theorem eq_regByte {b : Byte} {r : Reg} (h : b.toNat = r) : b = regByte r := by
  apply BitVec.eq_of_toNat_eq; simp [h]; omega

theorem regByte_inj {p q : Reg} (h : regByte p = regByte q) : p = q := by
  have := congrArg BitVec.toNat h
  simp only [BitVec.toNat_ofNat] at this
  exact Fin.ext (by omega)

/-- What an answer at `s` can be: a fault raised at `s`, or a next state with the effect `E`. -/
def CanDo (s : State) (E : State → Prop) (r : Result) : Prop :=
  (∃ k info, ExecRaises s k info ∧ r = raise k info s) ∨ ∃ t, E t ∧ r = .next t

section Shapes
variable {s : State} {E : State → Prop}

theorem next_shape {t : State} (h : E t) : CanDo s E (.next t) := .inr ⟨t, h, rfl⟩

/-- One register operand: a fault, or the continuation's answer. -/
theorem reg_shape {b : Byte} {k : Reg → Result} (h : ∀ r, b = regByte r → CanDo s E (k r)) :
    CanDo s E (withReg b s k) := by
  rcases withReg_cases b s k with ⟨hb, h'⟩ | ⟨r, hr, h'⟩
  · refine .inl ⟨_, _, .inl ⟨rfl, ?_, ?_⟩, h'⟩
    · simp only [BitVec.toNat_setWidth]; omega
    · simp only [BitVec.toNat_setWidth]; omega
  · rw [h']; exact h r (eq_regByte hr)

/-- Two register operands: a fault, or the continuation's answer. -/
theorem regs_shape {a b : Byte} {k : Reg → Reg → Result}
    (h : ∀ p q, a = regByte p → b = regByte q → CanDo s E (k p q)) : CanDo s E (withRegs a b s k) :=
  reg_shape fun p hp => reg_shape fun q hq => h p q hp hq

/-- A push: StackOverflow, or the continuation's answer with SP not 0. -/
theorem push_shape {k : Result} (h : s.sp ≠ 0 → CanDo s E k) : CanDo s E (withPushRoom s k) := by
  by_cases hs : s.sp = 0
  · exact .inl ⟨_, _, .inr (.inl ⟨rfl, rfl⟩), withPushRoom_of_eq hs k⟩
  · rw [withPushRoom_of_ne hs]; exact h hs

/-- A pop: StackUnderflow, or the continuation's answer on the byte at SP. -/
theorem pop_shape {k : Byte → Result} (h : s.sp ≠ 255 → CanDo s E (k (s.load s.sp))) :
    CanDo s E (withPopped s k) := by
  by_cases hs : s.sp = 255
  · exact .inl ⟨_, _, .inr (.inr (.inl ⟨rfl, by decide⟩)), withPopped_of_eq hs k⟩
  · rw [withPopped_of_ne hs]; exact h hs

/-- The shape of ADD, MUL, AND, OR, XOR and of NOT under REFERENCE_INEQUALITY. -/
theorem alu_shape {k : Mnemonic} {f : Byte → Byte → Byte} {a b : Byte}
    (h : ∀ p q, a = regByte p → b = regByte q →
      E ((s.setReg p (f (s.reg p) (s.reg q))).advance k)) : CanDo s E (aluBinary k f a b s) :=
  regs_shape fun p q hp hq => next_shape (h p q hp hq)

end Shapes

/-- Everything `exec` can do. -/
theorem exec_cases (i : Instr) (s : State) : CanDo s (Effect i s) (exec i s) := by
  cases i with
  | hlt => exact next_shape rfl
  | ret =>
    simp only [exec, execRet]
    refine pop_shape fun h => ?_
    exact next_shape ⟨h, rfl⟩
  | push a =>
    simp only [exec, execPush]
    refine reg_shape fun r hr => push_shape fun h => ?_
    exact next_shape ⟨r, hr, h, rfl⟩
  | pop a =>
    simp only [exec, execPop]
    refine reg_shape fun r hr => pop_shape fun h => ?_
    split
    · exact .inl ⟨_, _, .inr (.inr (.inl ⟨rfl, by simp only [BitVec.toNat_setWidth]; omega⟩)), rfl⟩
    · rename_i h7
      exact next_shape ⟨r, hr, h, fun e f => h7 ⟨e, f⟩, rfl⟩
  | prn a =>
    simp only [exec, execPrn]
    refine reg_shape fun r hr => ?_
    exact next_shape ⟨r, hr, rfl⟩
  | call a =>
    simp only [exec, execCall]
    refine reg_shape fun r hr => push_shape fun h => ?_
    exact next_shape ⟨r, hr, h, rfl⟩
  | jmp a =>
    simp only [exec, execJmp]
    refine reg_shape fun r hr => ?_
    exact next_shape ⟨r, hr, rfl⟩
  | jeq a =>
    simp only [exec, execJeq]
    refine reg_shape fun r hr => .inr ⟨_, ⟨r, hr, rfl⟩, ?_⟩
    by_cases h : s.fl = flagEqual <;> simp [h, State.flagsSayEqual, jumpTo]
  | jne a =>
    simp only [exec, execJne]
    refine reg_shape fun r hr => .inr ⟨_, ⟨r, hr, rfl⟩, ?_⟩
    by_cases h : s.fl = flagEqual <;> simp [h, State.flagsSayEqual, jumpTo]
  | not a =>
    simp only [exec, execNot]
    cases hn : s.cfg.notSemantics with
    | onesComplement => exact reg_shape fun r hr => next_shape ⟨r, _, hr, rfl, by rw [hn]⟩
    | referenceInequality =>
      simp only
      by_cases hp : s.pc.toNat + 2 ≤ 255
      · rw [withByte_of_le hp]
        exact alu_shape fun r q hr hq => ⟨r, _, hr, rfl, by rw [hn]; exact ⟨q, by omega, hq, rfl⟩⟩
      · rw [withByte_of_gt (by omega)]
        exact .inl ⟨_, _, .inr (.inr (.inr ⟨rfl, by omega⟩)), rfl⟩
  | ldi a v =>
    simp only [exec, execLdi]
    refine reg_shape fun r hr => ?_
    exact next_shape ⟨r, hr, rfl⟩
  | add a b => exact alu_shape fun p q hp hq => ⟨p, q, hp, hq, rfl⟩
  | mul a b => exact alu_shape fun p q hp hq => ⟨p, q, hp, hq, rfl⟩
  | cmp a b =>
    simp only [exec, execCmp]
    exact regs_shape fun p q hp hq => next_shape ⟨p, q, hp, hq, rfl⟩
  | and a b => exact alu_shape fun p q hp hq => ⟨p, q, hp, hq, rfl⟩
  | or a b => exact alu_shape fun p q hp hq => ⟨p, q, hp, hq, rfl⟩
  | xor a b => exact alu_shape fun p q hp hq => ⟨p, q, hp, hq, rfl⟩

/-- The inversion of `exec`: from a next state, the fault taken or the effect of the instruction. -/
theorem exec_next {i : Instr} {s t : State} (h : exec i s = .next t) :
    (∃ k info, ExecRaises s k info ∧ t = s.enterFault k info) ∨ Effect i s t := by
  rcases exec_cases i s with ⟨k, info, hr, h'⟩ | ⟨u, he, h'⟩
  · exact .inl ⟨k, info, hr, (Host.Outcome.next.inj (h'.symm.trans h)).symm⟩
  · exact .inr (Host.Outcome.next.inj (h'.symm.trans h) ▸ he)

end Sys2Proof.Machine
end

