-- ==== Sys2Proof/Laws/Loader.lean ====
section
/-! SUPPORT. The reading of program text (spec/20_memory.md R47; log 12): binary digits, the blanks at the
ends of a line, its comment, what parsing a line or a text can answer; and what the Loader writes and how
booting can end (spec/60_exceptions.md R173). -/

namespace Sys2Proof.Machine

theorem isBlank_iff (c : Char) : isBlank c = true ↔ c = ' ' ∨ c = '\t' ∨ c = '\r' := by simp [isBlank]

theorem BlankLine.isBlank {l : Line} (h : BlankLine l) : ∀ c ∈ l, isBlank c = true :=
  fun c hc => (isBlank_iff c).mpr (h c hc)

theorem BlankLine.no_hash {l : Line} (h : BlankLine l) : '#' ∉ l := fun hc => by
  have := h _ hc; simp at this

theorem DigitLine.no_hash {l : Line} (h : DigitLine l) : '#' ∉ l := fun hc => by
  have := h _ hc; simp at this

theorem DigitLine.not_blank {l : Line} (h : DigitLine l) : ∀ c ∈ l, Machine.isBlank c = false := by
  intro c hc
  rcases h c hc with rfl | rfl <;> decide

/-- The value of digits is the fold of their bits, most significant first. -/
theorem binaryDigits_of_digits {l : Line} (h : DigitLine l) (acc : Nat) :
    binaryDigits acc l = some (l.foldl (fun n c => 2 * n + if c = '1' then 1 else 0) acc) := by
  induction l generalizing acc with
  | nil => rfl
  | cons c rest ih =>
    have ih := ih fun d hd => h d (List.mem_cons_of_mem _ hd)
    rcases h c List.mem_cons_self with rfl | rfl <;> simp [binaryDigits, binaryDigit, ih]

/-- One character that is no digit leaves a literal without a value. -/
theorem binaryDigits_of_mem {l : Line} {c : Char} (hc : c ∈ l) (h : c ≠ '0' ∧ c ≠ '1') (acc : Nat) :
    binaryDigits acc l = none := by
  induction l generalizing acc with
  | nil => cases hc
  | cons d rest ih =>
    rcases List.mem_cons.mp hc with rfl | hc
    · simp [binaryDigits, binaryDigit, h]
    · simp only [binaryDigits]; split <;> simp [ih hc]

theorem binaryLiteral_of_digits {l : Line} (h : DigitLine l) (hl : l ≠ []) :
    binaryLiteral l = some (l.foldl (fun n c => 2 * n + if c = '1' then 1 else 0) 0) := by
  cases l with
  | nil => exact absurd rfl hl
  | cons c rest => exact binaryDigits_of_digits h 0

theorem binaryLiteral_of_mem {l : Line} {c : Char} (hc : c ∈ l) (h : c ≠ '0' ∧ c ≠ '1') :
    binaryLiteral l = none := by
  cases l with
  | nil => cases hc
  | cons d rest => exact binaryDigits_of_mem hc h 0

theorem dropWhile_append_of_ends {p : Char → Bool} {blanks core : Line} (hb : ∀ c ∈ blanks, p c = true)
    (hc : ∀ c, core.head? = some c → p c = false) : (blanks ++ core).dropWhile p = core := by
  induction blanks with
  | nil => cases core <;> simp_all
  | cons b rest ih => simp_all

/-- Trimming drops the blanks at both ends and nothing else. -/
theorem trimLine_of_ends {before core behind : Line} (hb : BlankLine before) (he : BlankLine behind)
    (h0 : ∀ c, core.head? = some c → isBlank c = false)
    (h1 : ∀ c, core.getLast? = some c → isBlank c = false) (hn : core ≠ []) :
    trimLine (before ++ core ++ behind) = core := by
  have hh : ∀ c, (core ++ behind).head? = some c → isBlank c = false := by
    cases core with
    | nil => exact absurd rfl hn
    | cons d rest => exact h0
  have hr : ∀ c ∈ behind.reverse, isBlank c = true := fun c hc => he.isBlank c (List.mem_reverse.mp hc)
  rw [trimLine, List.append_assoc, dropWhile_append_of_ends hb.isBlank hh, List.reverse_append,
    dropWhile_append_of_ends hr (by simpa using h1), List.reverse_reverse]

/-- Every line is its trimmed part between two lines of blanks. -/
theorem trimLine_split (l : Line) :
    ∃ before behind, BlankLine before ∧ BlankLine behind ∧ l = before ++ trimLine l ++ behind := by
  have hblank : ∀ m : Line, BlankLine (m.takeWhile isBlank) := fun m c hc =>
    (isBlank_iff c).mp (List.mem_takeWhile_imp hc)
  refine ⟨l.takeWhile isBlank, ((l.dropWhile isBlank).reverse.takeWhile isBlank).reverse, hblank l,
    fun c hc => hblank _ c (List.mem_reverse.mp hc), ?_⟩
  rw [trimLine, List.append_assoc, ← List.reverse_append, List.takeWhile_append_dropWhile,
    List.reverse_reverse, List.takeWhile_append_dropWhile]

/-- A character that is no blank stays in the trimmed line. -/
theorem mem_trimLine {l : Line} {c : Char} (hc : c ∈ l) (h : isBlank c = false) : c ∈ trimLine l := by
  obtain ⟨before, behind, hb, he, hl⟩ := trimLine_split l
  rw [hl] at hc
  rcases List.mem_append.mp hc with hc | hc
  · rcases List.mem_append.mp hc with hc | hc
    · rw [hb.isBlank c hc] at h; cases h
    · exact hc
  · rw [he.isBlank c hc] at h; cases h

/-- The part of a line before its comment. -/
theorem takeWhile_comment {v comment : Line} (hv : '#' ∉ v)
    (hc : comment = [] ∨ comment.head? = some '#') :
    (v ++ comment).takeWhile (fun c => c ≠ '#') = v := by
  induction v with
  | nil => rcases hc with rfl | hc <;> [rfl; cases comment <;> simp_all]
  | cons c rest ih =>
    have hr : '#' ∉ rest := fun h => hv (List.mem_cons_of_mem _ h)
    have h0 : c ≠ '#' := fun h => hv (h ▸ List.mem_cons_self)
    simpa [h0] using ih hr

theorem parseLine_of_blank {l : Line} (h : BlankLine l) : parseLine l = .ok none := by
  have : l.all isBlank = true := List.all_eq_true.mpr h.isBlank
  simp [parseLine, this]

theorem parseLine_of_comment {l : Line} (h : l.head? = some '#') : parseLine l = .ok none := by
  simp [parseLine, h]

/-- A line with a character that is neither a blank nor the `#` of a comment line is its literal. -/
theorem parseLine_of_value {l : Line} {c : Char} (h : l.head? ≠ some '#') (hc : c ∈ l)
    (hb : isBlank c = false) :
    parseLine l = match binaryLiteral (trimLine (l.takeWhile fun c => c ≠ '#')) with
      | some n => if n ≤ 255 then .ok (some (BitVec.ofNat 8 n)) else .error .malformedLine
      | none => .error .malformedLine := by
  have : l.all isBlank ≠ true := fun ha => by
    have := List.all_eq_true.mp ha c hc
    rw [hb] at this; cases this
  unfold parseLine
  exact (if_neg h).trans (if_neg this)

/-- A line answers a byte, nothing, or malformedLine. -/
theorem parseLine_cases (l : Line) : parseLine l = .error .malformedLine ∨ ∃ b, parseLine l = .ok b := by
  unfold parseLine
  split
  · exact .inr ⟨_, rfl⟩
  split
  · exact .inr ⟨_, rfl⟩
  split
  · split
    · exact .inr ⟨_, rfl⟩
    · exact .inl rfl
  · exact .inl rfl

/-- A text answers its bytes, or malformedLine exactly when some line does. -/
theorem parseProgram_cases (lines : List Line) :
    (parseProgram lines = .error .malformedLine ∧ ∃ l ∈ lines, parseLine l = .error .malformedLine) ∨
      ((∃ bs, parseProgram lines = .ok bs) ∧ ∀ l ∈ lines, parseLine l ≠ .error .malformedLine) := by
  induction lines with
  | nil => exact .inr ⟨⟨[], rfl⟩, by simp⟩
  | cons l rest ih =>
    rcases parseLine_cases l with hl | ⟨b, hl⟩
    · exact .inl ⟨by simp [parseProgram, hl], l, List.mem_cons_self, hl⟩
    · rcases ih with ⟨h1, m, hm, h2⟩ | ⟨⟨bs, h1⟩, h2⟩
      · exact .inl ⟨by cases b <;> simp [parseProgram, hl, h1], m, List.mem_cons_of_mem _ hm, h2⟩
      · refine .inr ⟨by cases b <;> simp [parseProgram, hl, h1], fun m hm => ?_⟩
        rcases List.mem_cons.mp hm with rfl | hm
        · simp [hl]
        · exact h2 m hm

/-- The bytes of a text that parses are the ones before its first malformed line, since it has none. -/
theorem parsedBytes_of_ok {lines : List Line} {bytes : List Byte} (h : parseProgram lines = .ok bytes) :
    parsedBytes lines = bytes := by
  induction lines generalizing bytes with
  | nil => exact Except.ok.inj h
  | cons l rest ih =>
    cases hl : parseLine l with
    | error e => simp [parseProgram, hl] at h
    | ok b =>
      cases hr : parseProgram rest with
      | error e => cases b <;> simp [parseProgram, hl, hr] at h
      | ok bs => cases b <;> simp [parseProgram, hl, hr] at h <;> simp [parsedBytes, hl, ih hr, h]

/-- The Loader's writes in IDLE change memory only. -/
theorem State.loadBytes_frame {s : State} (hs : s.status = .idle) (a : Nat) (bytes : List Byte) :
    s.loadBytes a bytes = { s with mem := (s.loadBytes a bytes).mem } := by
  induction bytes generalizing s a with
  | nil => rfl
  | cons b rest ih =>
    have hst : s.loadPort (BitVec.ofNat 8 a) b = s.store (BitVec.ofNat 8 a) b := by
      simp [State.loadPort, hs]
    rw [State.loadBytes, hst]
    exact (ih (s := s.store _ b) hs (a + 1)).trans rfl

/-- The Loader's writes in IDLE, within the 256 addresses, put the bytes at ascending addresses and leave
every other byte. -/
theorem State.loadBytes_read {s : State} (hs : s.status = .idle) (a : Nat) (bytes : List Byte)
    (ha : a + bytes.length ≤ 256) (n : Nat) :
    (s.loadBytes a bytes).mem.read n =
      if a ≤ n ∧ n < a + bytes.length then bytes.getD (n - a) 0 else s.mem.read n := by
  induction bytes generalizing s a with
  | nil => rw [if_neg (by rw [List.length_nil]; omega)]; rfl
  | cons b rest ih =>
    rw [List.length_cons] at ha ⊢
    have hst : s.loadPort (BitVec.ofNat 8 a) b = s.store (BitVec.ofNat 8 a) b := by
      simp [State.loadPort, hs]
    have hm : (BitVec.ofNat 8 a).toNat = a := by simp; omega
    rw [State.loadBytes, hst, ih (s := s.store _ b) hs (a + 1) (by omega), State.store,
      Memory.read_write, hm]
    rcases Nat.lt_trichotomy n a with h | rfl | h
    · rw [if_neg (by omega), if_neg (by omega), if_neg (by omega)]
    · simp
    · by_cases hn : n < a + 1 + rest.length
      · rw [if_pos (by omega), if_pos (by omega), show n - a = n - (a + 1) + 1 by omega, List.getD_cons_succ]
      · rw [if_neg (by omega), if_neg (by omega), if_neg (by omega)]

/-- How booting an image can end: started with the image loaded, or in a LoadError. -/
theorem bootImage_cases (written : Nat) (s : State) (image : List Byte) :
    (image.length ≤ 256 ∧ bootImage written s image =
        { state := (s.resetInput.loadBytes 0 image).startInput, error := none }) ∨
      (256 < image.length ∧
        bootImage written s image = s.resetInput.failLoad written image .imageTooLong) := by
  by_cases h : image.length ≤ 256
  · exact .inl ⟨h, by simp [bootImage, State.loadImage, LoadResult.start, h]⟩
  · exact .inr ⟨by omega, by simp [bootImage, State.loadImage, LoadResult.start, State.failLoad, h]⟩

/-- How booting from program text can end: started with the text's bytes loaded, or in a LoadError with a
part of them written. -/
theorem bootProgram_cases (written : Nat) (s : State) (lines : List Line) :
    (parseProgram lines = .ok (parsedBytes lines) ∧ (parsedBytes lines).length ≤ 256 ∧
        bootProgram written s (some lines) =
          { state := (s.resetInput.loadBytes 0 (parsedBytes lines)).startInput, error := none }) ∨
      (parseProgram lines = .ok (parsedBytes lines) ∧ 256 < (parsedBytes lines).length ∧
        bootProgram written s (some lines) =
          s.resetInput.failLoad written (parsedBytes lines) .imageTooLong) ∨
      (parseProgram lines = .error .malformedLine ∧
        bootProgram written s (some lines) =
          s.resetInput.failLoad written (parsedBytes lines) .malformedLine) := by
  rcases parseProgram_cases lines with ⟨h, -⟩ | ⟨⟨bytes, h⟩, -⟩
  · exact .inr (.inr ⟨h, by simp [bootProgram, h]⟩)
  · have hp := parsedBytes_of_ok h
    subst hp
    rcases bootImage_cases written s (parsedBytes lines) with ⟨hl, hb⟩ | ⟨hl, hb⟩
    · exact .inl ⟨h, hl, by simp [bootProgram, h, hb]⟩
    · exact .inr (.inl ⟨h, hl, by simp [bootProgram, h, hb]⟩)

end Sys2Proof.Machine
end

