-- ==== Sys2Proof/Laws/PerInstr.lean ====
section
/-! SUPPORT. Statements for all instructions, one lemma per constructor. EncodingLength: the encoding of
an instruction has the length its opcode's bits [7:6] say (spec/30_encoding.md R60). -/

namespace Sys2Proof.Laws.EncodingLength

def Statement (i : Instr) : Prop :=
  ∀ m : OpcodeMap, (encode m i).length = instrLength (m.byteOf i.mnemonic)

theorem hlt : Statement .hlt := fun m => (m.instrLength_byteOf .hlt).symm
theorem ret : Statement .ret := fun m => (m.instrLength_byteOf .ret).symm
theorem push (rA : Byte) : Statement (.push rA) := fun m => (m.instrLength_byteOf .push).symm
theorem pop (rA : Byte) : Statement (.pop rA) := fun m => (m.instrLength_byteOf .pop).symm
theorem prn (rA : Byte) : Statement (.prn rA) := fun m => (m.instrLength_byteOf .prn).symm
theorem call (rA : Byte) : Statement (.call rA) := fun m => (m.instrLength_byteOf .call).symm
theorem jmp (rA : Byte) : Statement (.jmp rA) := fun m => (m.instrLength_byteOf .jmp).symm
theorem jeq (rA : Byte) : Statement (.jeq rA) := fun m => (m.instrLength_byteOf .jeq).symm
theorem jne (rA : Byte) : Statement (.jne rA) := fun m => (m.instrLength_byteOf .jne).symm
theorem not (rA : Byte) : Statement (.not rA) := fun m => (m.instrLength_byteOf .not).symm
theorem ldi (rA imm8 : Byte) : Statement (.ldi rA imm8) := fun m => (m.instrLength_byteOf .ldi).symm
theorem add (rA rB : Byte) : Statement (.add rA rB) := fun m => (m.instrLength_byteOf .add).symm
theorem mul (rA rB : Byte) : Statement (.mul rA rB) := fun m => (m.instrLength_byteOf .mul).symm
theorem cmp (rA rB : Byte) : Statement (.cmp rA rB) := fun m => (m.instrLength_byteOf .cmp).symm
theorem and (rA rB : Byte) : Statement (.and rA rB) := fun m => (m.instrLength_byteOf .and).symm
theorem or (rA rB : Byte) : Statement (.or rA rB) := fun m => (m.instrLength_byteOf .or).symm
theorem xor (rA rB : Byte) : Statement (.xor rA rB) := fun m => (m.instrLength_byteOf .xor).symm

end Sys2Proof.Laws.EncodingLength
end

