-- ==== Sys2Proof/Tests/Slice0.lean ====
section
/-! SUPPORT. Tests on single steps, whose expected values are those of spec/95_test_vectors.md (the id of a
vector stands in its test's comment), the smoke test of WellFormed, and a witness for the hypotheses of
each statement in Certificates/Slice0/Obligations.lean. -/

namespace Sys2Proof.Tests

open Sys2Proof.Machine

/-! Helpers -/

/-- The vectors' "Start": the launch state of R182 before its image. -/
def start : State := { State.reset with status := .running }

/-- Start with some registers set. -/
def withRegisters (rs : List (Reg × Byte)) : State := rs.foldl (fun s r => s.setReg r.1 r.2) start

/-- A state with bytes at ascending addresses. -/
def place (s : State) : Nat → List Byte → State
  | _, [] => s
  | a, b :: rest => place (s.placeByte a b) (a + 1) rest

/-- What one step leaves, with the given bytes at pc. -/
def after (s : State) (bytes : List Byte) : State :=
  match step (place s s.pc.toNat bytes) with
  | .next t => t
  | .fault _ | .refused _ => State.reset

/-- The fault record one step leaves, with the given bytes at pc. -/
def faultAfter (s : State) (bytes : List Byte) : Option FaultRecord := (after s bytes).fault

/-- Start under NOT_SEMANTICS = ONES_COMPLEMENT. -/
def onesStart : State := { start with cfg := { Config.default with notSemantics := .onesComplement } }

/-! WellFormed: an ill-formed term for each register operand, and the extremes that are well formed. -/

theorem test_wellFormed_refuses_first_operand : (Instr.push 8).wellFormed = false := by decide
theorem test_wellFormed_refuses_first_of_two : (Instr.add 8 0).wellFormed = false := by decide
theorem test_wellFormed_refuses_second_of_two : (Instr.cmp 0 255).wellFormed = false := by decide
theorem test_wellFormed_refuses_ldi_register : (Instr.ldi 8 0).wellFormed = false := by decide
theorem test_wellFormed_accepts_extremes :
    (Instr.ldi 7 255).wellFormed = true ∧ (Instr.xor 7 7).wellFormed = true := by decide

/-! Decoding: each row of R64, its binary column written out, with register 3 and byte 7 behind it. -/

theorem test_decode_len1 :
    decode OpcodeMap.ls8 0b00000001 3 7 = .ok .hlt ∧ decode OpcodeMap.ls8 0b00010001 3 7 = .ok .ret := by
  decide
theorem test_decode_stack_and_print :
    decode OpcodeMap.ls8 0b01000101 3 7 = .ok (.push 3) ∧ decode OpcodeMap.ls8 0b01000110 3 7 = .ok (.pop 3) ∧
      decode OpcodeMap.ls8 0b01000111 3 7 = .ok (.prn 3) := by decide
theorem test_decode_control_flow :
    decode OpcodeMap.ls8 0b01010000 3 7 = .ok (.call 3) ∧ decode OpcodeMap.ls8 0b01010100 3 7 = .ok (.jmp 3) ∧
      decode OpcodeMap.ls8 0b01010101 3 7 = .ok (.jeq 3) ∧
      decode OpcodeMap.ls8 0b01010110 3 7 = .ok (.jne 3) := by decide
theorem test_decode_not_and_ldi :
    decode OpcodeMap.ls8 0b01101001 3 7 = .ok (.not 3) ∧
      decode OpcodeMap.ls8 0b10000010 3 7 = .ok (.ldi 3 7) := by decide
theorem test_decode_alu :
    decode OpcodeMap.ls8 0b10100000 3 7 = .ok (.add 3 7) ∧ decode OpcodeMap.ls8 0b10100010 3 7 = .ok (.mul 3 7) ∧
      decode OpcodeMap.ls8 0b10100111 3 7 = .ok (.cmp 3 7) ∧ decode OpcodeMap.ls8 0b10101000 3 7 = .ok (.and 3 7) ∧
      decode OpcodeMap.ls8 0b10101010 3 7 = .ok (.or 3 7) ∧
      decode OpcodeMap.ls8 0b10101011 3 7 = .ok (.xor 3 7) := by decide
/-- R66: SUB's LS-8 byte, NOP's, and the byte 0xC0 are illegal. -/
theorem test_decode_rejects :
    decode OpcodeMap.ls8 0xA1 0 0 = .error (.illegalOpcode 0xA1) ∧
      decode OpcodeMap.ls8 0x00 0 0 = .error (.illegalOpcode 0x00) ∧
      decode OpcodeMap.ls8 0xC0 0 0 = .error (.illegalOpcode 0xC0) := by decide
/-- R64: there are 17 rows; the map's legality is checked where it is built. -/
theorem test_seventeen_rows : Mnemonic.all.length = 17 := by decide
/-- opcode_table.json's numbering: byte 0 in the low bits. `82 00 08` is LDI R0, 8. -/
theorem test_decodeTableWord : decodeTableWord 24 0x080082 = some (.ldi 0 8) := by decide

/-! Steps -/

/-- IO1 -/
theorem test_ldi : (after start [0x82, 0x00, 0x08]).reg 0 = 8 ∧ (after start [0x82, 0x00, 0x08]).pc = 3 := by
  decide
/-- IO3 -/
theorem test_ldi_sp : (after start [0x82, 0x07, 0x10]).sp = 0x10 := by decide
/-- IO4 -/
theorem test_prn : (after start [0x47, 0x07]).out = [244] ∧ (after start [0x47, 0x07]).pc = 2 := by decide
/-- IO6 -/
theorem test_hlt : (after { start with pc := 10 } [0x01]).status = .halted := by decide
/-- IO7 -/
theorem test_ldi_register_8 : faultAfter start [0x82, 0x08, 0x01] = some ⟨.outOfBoundsRegister, 0, 8⟩ := by
  decide
/-- A1 -/
theorem test_add : (after (withRegisters [(0, 200), (1, 100)]) [0xA0, 0x00, 0x01]).reg 0 = 44 := by decide
/-- A3 -/
theorem test_add_self : (after (withRegisters [(2, 0x80)]) [0xA0, 0x02, 0x02]).reg 2 = 0 := by decide
/-- A4 -/
theorem test_mul : (after (withRegisters [(0, 8), (1, 9)]) [0xA2, 0x00, 0x01]).reg 0 = 72 := by decide
/-- A5 -/
theorem test_mul_wraps : (after (withRegisters [(0, 255), (1, 255)]) [0xA2, 0x00, 0x01]).reg 0 = 1 := by
  decide
/-- A7 -/
theorem test_and : (after (withRegisters [(0, 0xCC), (1, 0xAA)]) [0xA8, 0x00, 0x01]).reg 0 = 0x88 := by
  decide
/-- A8 -/
theorem test_or : (after (withRegisters [(0, 0xCC), (1, 0xAA)]) [0xAA, 0x00, 0x01]).reg 0 = 0xEE := by
  decide
/-- A9 -/
theorem test_xor : (after (withRegisters [(0, 0xCC), (1, 0xAA)]) [0xAB, 0x00, 0x01]).reg 0 = 0x66 := by
  decide
/-- A11, A12: with registers 5 and 7, then 7 and 7, and the byte 01 after NOT. -/
theorem test_not_reference :
    (after (withRegisters [(0, 5), (1, 7)]) [0x69, 0x00, 0x01]).reg 0 = 1 ∧
      (after (withRegisters [(0, 7), (1, 7)]) [0x69, 0x00, 0x01]).reg 0 = 0 := by decide
/-- A13b, A13c -/
theorem test_not_ones_and_fault :
    (after (onesStart.setReg 0 0x0F) [0x69, 0x00]).reg 0 = 0xF0 ∧
      faultAfter (withRegisters [(0, 5)]) [0x69, 0x00, 0x82] = some ⟨.outOfBoundsRegister, 0, 0x82⟩ := by
  decide
/-- A15, A17 -/
theorem test_cmp_unsigned :
    (after (withRegisters [(1, 255)]) [0xA7, 0x00, 0x01]).fl = 0b100 ∧
      (after (withRegisters [(0, 0x80), (1, 0x7F)]) [0xA7, 0x00, 0x01]).fl = 0b010 := by decide
/-- A18 -/
theorem test_cmp_equal : (after { start with fl := 0b100 } [0xA7, 0x04, 0x04]).fl = 0b001 := by decide
/-- A20 -/
theorem test_add_checks_first_operand_first :
    faultAfter start [0xA0, 0x09, 0x0A] = some ⟨.outOfBoundsRegister, 0, 9⟩ := by decide
/-- S2 -/
theorem test_push_sp : (after start [0x45, 0x07]).sp = 0xF3 ∧ (after start [0x45, 0x07]).load 0xF3 = 0xF3 := by
  decide
/-- S4 -/
theorem test_push_at_zero : (after (withRegisters [(7, 1), (0, 0x77)]) [0x45, 0x00]).load 0 = 0x77 := by
  decide
/-- S12 -/
theorem test_push_register_before_stack :
    faultAfter (withRegisters [(7, 0)]) [0x45, 0x09] = some ⟨.outOfBoundsRegister, 0, 9⟩ := by decide
/-- S6 -/
theorem test_pop_sp : (after ((withRegisters [(7, 0xF3)]).store 0xF3 0x10) [0x46, 0x07]).sp = 0x11 := by
  decide
/-- S7 -/
theorem test_pop_sp_255 :
    faultAfter ((withRegisters [(7, 0xF3)]).store 0xF3 0xFF) [0x46, 0x07] =
      some ⟨.stackUnderflow, 0, 0xF3⟩ := by decide
/-- CF1 -/
theorem test_call :
    (after { withRegisters [(1, 11)] with pc := 6 } [0x50, 0x01]).pc = 11 ∧
      (after { withRegisters [(1, 11)] with pc := 6 } [0x50, 0x01]).load 0xF3 = 8 := by decide
/-- CF13 -/
theorem test_call_sp : (after start [0x50, 0x07]).pc = 0xF3 ∧ (after start [0x50, 0x07]).load 0xF3 = 2 := by
  decide
/-- CF2 -/
theorem test_ret :
    (after ((withRegisters [(7, 0xF3)]).store 0xF3 8) [0x11]).pc = 8 ∧
      (after ((withRegisters [(7, 0xF3)]).store 0xF3 8) [0x11]).sp = 0xF4 := by decide
/-- CF12 -/
theorem test_ret_underflow : faultAfter (withRegisters [(7, 255)]) [0x11] = some ⟨.stackUnderflow, 0, 255⟩ := by
  decide
/-- CF3 -/
theorem test_jmp : (after (withRegisters [(3, 12)]) [0x54, 0x03]).pc = 12 := by decide
/-- CF4, CF5 -/
theorem test_jeq :
    (after { withRegisters [(3, 12)] with fl := 0b001 } [0x55, 0x03]).pc = 12 ∧
      (after { withRegisters [(3, 12)] with fl := 0b100 } [0x55, 0x03]).pc = 2 := by decide
/-- CF10 -/
theorem test_jeq_checks_when_not_taken :
    faultAfter start [0x55, 0x09] = some ⟨.outOfBoundsRegister, 0, 9⟩ := by decide
/-- CF7, CF8 -/
theorem test_jne :
    (after (withRegisters [(1, 5)]) [0x56, 0x01]).pc = 5 ∧
      (after { withRegisters [(3, 12)] with fl := 0b001 } [0x56, 0x03]).pc = 2 := by decide
/-- D1, D4 -/
theorem test_fetch_past_end :
    faultAfter { start with pc := 254 } [0x01] = some ⟨.outOfBoundsMemory, 254, 256⟩ ∧
      faultAfter { start with pc := 255 } [0x00] = some ⟨.outOfBoundsMemory, 255, 256⟩ := by decide
/-- D2, D5 -/
theorem test_last_instruction_address :
    (after { start with pc := 253 } [0x01]).status = .halted ∧
      (after { start with pc := 253 } [0x82, 0x00, 0x05]).pc = 256 := by decide
/-- D7 -/
theorem test_illegal_opcode : faultAfter start [0xA1, 0x00, 0x01] = some ⟨.illegalInstruction, 0, 0xA1⟩ := by
  decide
/-- R88: IDLE has no step. -/
theorem test_no_step_from_reset : ∀ t, step State.reset ≠ .next t := by
  intro t h; cases h
/-- withFetchWord runs its word as the next step: LDI R0, 8. -/
theorem test_withFetchWord :
    (match step (State.reset.withFetchWord 24 0x080082) with
      | .next t => t.reg 0
      | .fault _ | .refused _ => 0) = 8 := by decide

/-! Ports and Loader -/

/-- R69's first lines, a comment and a blank line. -/
theorem test_parse_program :
    parseProgram ["10000010 # LDI R0,8".toList, "# comment".toList, "".toList, "00000000".toList,
      "00001000".toList] = .ok [0x82, 0x00, 0x08] := by decide
/-- R47: 256 is outside [0, 255]; an empty value is no literal; 2 is no binary digit. -/
theorem test_parse_malformed :
    parseLine "100000000".toList = .error .malformedLine ∧
      parseLine " # x".toList = .error .malformedLine ∧
      parseLine "10000002".toList = .error .malformedLine := by decide
/-- R182: a booted image is RUNNING with its bytes in memory and 0 after them. -/
theorem test_boot :
    (bootImage 0 start [0x82, 0x00, 0x08]).error = none ∧
      (let t := (bootImage 0 start [0x82, 0x00, 0x08]).state
       t.status = .running ∧ t.load 2 = 8 ∧ t.load 3 = 0 ∧ t.pc = 0 ∧ t.sp = 0xF4) := by decide
/-- E3: a missing file leaves the core IDLE with all memory 0. -/
theorem test_boot_missing_file :
    bootProgram 1 start none = { state := State.reset, error := some .missingFile } := rfl
/-- R173: a malformed second line leaves the core IDLE, here with the first line's byte written. -/
theorem test_boot_malformed :
    (bootProgram 5 start (some ["00000001".toList, "2".toList])).error = some .malformedLine ∧
      (let t := (bootProgram 5 start (some ["00000001".toList, "2".toList])).state
       t.status = .idle ∧ t.load 0 = 1 ∧ t.load 1 = 0) := by decide

/-! Witnesses: concrete states and operands that meet the hypotheses of the statements. -/

/-- The operand hypothesis of ChecksOneRegister and of NOT's fault clauses, at both ends. -/
theorem witness_ChecksOneRegister : 8 ≤ (8 : Byte).toNat ∧ 8 ≤ (255 : Byte).toNat := by decide
theorem witness_ChecksTwoRegisters :
    8 ≤ (8 : Byte).toNat ∧ (7 : Byte).toNat < 8 ∧ 8 ≤ (255 : Byte).toNat := by decide
/-- NOT with R1 named by the byte after it, and with the byte 8. -/
theorem witness_NotReferenceComparesRegisters :
    (place start 0 [0x69, 0, 1]).cfg.notSemantics = .referenceInequality ∧
      (place start 0 [0x69, 0, 1]).pc.toNat ≤ 253 ∧
      (place start 0 [0x69, 0, 1]).mem.read ((place start 0 [0x69, 0, 1]).pc.toNat + 2) = regByte 1 ∧
      8 ≤ ((place start 0 [0x69, 0, 8]).mem.read ((place start 0 [0x69, 0, 8]).pc.toNat + 2)).toNat := by
  decide
theorem witness_NotOnesComplementInverts : onesStart.cfg.notSemantics = .onesComplement := by decide
theorem witness_PushStoresBelowStackPointer :
    (withRegisters [(7, 1)]).x[7] ≠ 0 ∧ (withRegisters [(7, 0)]).x[7] = 0 := by decide
/-- SP 254 popping into R0 and into R7, SP 255, and POP R7 of the byte 255. -/
theorem witness_PopLoadsThenIncrements :
    (withRegisters [(7, 254)]).x[7] ≠ 255 ∧
      ((7 : Reg) = 7 → (withRegisters [(7, 254)]).mem.read (withRegisters [(7, 254)]).x[7].toNat ≠ 255) ∧
      (withRegisters [(7, 255)]).x[7] = 255 ∧
      (start.store 0xF4 255).x[7] ≠ 255 ∧ (start.store 0xF4 255).mem.read (start.store 0xF4 255).x[7].toNat = 255 := by
  decide
theorem witness_PushThenPopRestoresRegisters : (withRegisters [(7, 1)]).x[7] ≠ 0 := by decide
theorem witness_CallPushesReturnAddress :
    ({ withRegisters [(7, 1)] with pc := 253 } : State).x[7] ≠ 0 ∧
      ({ withRegisters [(7, 1)] with pc := 253 } : State).pc.toNat ≤ 253 ∧
      (withRegisters [(7, 0)]).x[7] = 0 := by decide
/-- SP 254 and SP 255, and a popped 254. -/
theorem witness_RetPopsIntoPc :
    (withRegisters [(7, 254)]).x[7] ≠ 255 ∧ (withRegisters [(7, 255)]).x[7] = 255 ∧
      (start.store 0xF4 254).status = .running ∧ (start.store 0xF4 254).x[7] ≠ 255 ∧
      254 ≤ ((start.store 0xF4 254).mem.read (start.store 0xF4 254).x[7].toNat).toNat ∧
      exec .ret (start.store 0xF4 254) =
        .next ((start.store 0xF4 254).setPc (zext9 ((start.store 0xF4 254).load 0xF4))).incSp :=
  ⟨by decide, by decide, by decide, by decide, by decide, rfl⟩
theorem witness_JmpGoesToRegister : zext9 start.x[0] = start.pc := by decide
/-- CMP of equal and of different registers. -/
theorem witness_CompareThenBranchDecides :
    start.x[0] = start.x[1] ∧ start.x[0] ≠ start.x[7] := by decide
/-- A state after CALL R0 itself meets the hypotheses on the later state. -/
theorem witness_ReturnResumesAfterCall :
    start.x[7] ≠ 0 ∧ start.pc.toNat ≤ 253 ∧
      ∃ t u : State, exec (.call (regByte 0)) start = .next t ∧ u.x[7] = t.x[7] ∧
        u.mem.read t.x[7].toNat = t.mem.read t.x[7].toNat :=
  ⟨by decide, by decide, _, _, rfl, rfl, rfl⟩
theorem witness_OnlyDestinationRegistersChange :
    ∃ t, exec (.ldi 0 8) start = .next t ∧ t.x[0] ≠ start.x[0] := ⟨_, rfl, by decide⟩
theorem witness_OnlyPushAndCallStore : ∃ t, exec (.push 0) start = .next t ∧ 0 ≠ start.pushAddr.toNat :=
  ⟨_, rfl, by decide⟩
theorem witness_OnlyCmpWritesFlags :
    ∃ t, step (place start 0 [0xA7, 0, 1]) = .next t ∧ t.fl ≠ (place start 0 [0xA7, 0, 1]).fl :=
  ⟨_, rfl, by decide⟩
theorem witness_OnlyPrnEmits : ∃ t, step (place start 0 [0x47, 7]) = .next t := ⟨_, rfl⟩
/-- Two different FL values, neither EQUAL, and an instruction between them; CMP of a greater and of a
lesser register. -/
theorem witness_OnlyEqualIsObservable :
    (((0b010 : FlagWord) = 0b001) ↔ ((0b100 : FlagWord) = 0b001)) ∧
      (∃ t, exec (.jne 1) { start with fl := 0b010 } = .next t) ∧
      (∀ a, Instr.push 0 ≠ .jeq a ∧ Instr.push 0 ≠ .jne a) ∧
      (∃ t, exec (.push 0) { start with fl := 0b001 } = .next t) ∧
      start.x[0].toNat < start.x[7].toNat :=
  ⟨by decide, ⟨_, rfl⟩, fun _ => ⟨nofun, nofun⟩, ⟨_, rfl⟩, by decide⟩
theorem witness_SequentialAdvanceIsEncodingLength :
    ∃ t, exec (.ldi 0 8) start = .next t ∧ start.status = .running ∧ t.status ≠ .faulted :=
  ⟨_, rfl, by decide, by decide⟩
theorem witness_ParametersNeverChange : ∃ t, step (place start 0 [0x01]) = .next t := ⟨_, rfl⟩
theorem witness_StepRunsDecodedInstruction :
    (place start 0 [0x82, 0, 8]).status = .running ∧ (place start 0 [0x82, 0, 8]).pc.toNat ≤ 253 ∧
      decode (place start 0 [0x82, 0, 8]).cfg.opcodes ((place start 0 [0x82, 0, 8]).mem.read 0)
        ((place start 0 [0x82, 0, 8]).mem.read 1) ((place start 0 [0x82, 0, 8]).mem.read 2) =
        .ok (.ldi 0 8) := by decide
theorem witness_FetchPastMemoryFaults :
    ({ start with pc := 254 } : State).status = .running ∧ 254 ≤ ({ start with pc := 254 } : State).pc.toNat ∧
      254 ≤ ({ start with pc := 256 } : State).pc.toNat := by decide
/-- Start itself: the byte at pc is 0; at pc 253 and 254 too. -/
theorem witness_UnknownOpcodeFaults :
    start.status = .running ∧ (∀ k, start.cfg.opcodes.byteOf k ≠ start.mem.read start.pc.toNat) ∧
      ({ start with pc := 253 } : State).pc.toNat ≤ 253 ∧ ({ start with pc := 254 } : State).pc.toNat = 254 :=
  ⟨by decide, by intro k; cases k <;> decide, by decide, by decide⟩
theorem witness_NoStepOutsideRunning :
    State.reset.status ≠ .running ∧ ({ start with status := .halted } : State).status = .halted ∧
      State.reset.status = .idle := by decide
/-- PUSH 9 with SP = 0, and ADD 7, 8. -/
theorem witness_RegisterChecksComeFirst :
    decode OpcodeMap.ls8 0x45 9 0 = .ok (.push 9) ∧ (Instr.push 9).registerOperands = 9 :: [] ∧
      8 ≤ (9 : Byte).toNat ∧ (Instr.add 7 8).registerOperands = [7, 8] ∧ (7 : Byte).toNat < 8 ∧
      8 ≤ (8 : Byte).toNat := by decide
theorem witness_RunningMachineAlwaysSteps : start.status = .running := by decide
theorem witness_FaultingStepChangesNothingElse :
    ∃ t, step start = .next t ∧ t.status = .faulted := ⟨_, rfl, by decide⟩
theorem witness_ReservedFaultKindsNeverRaised :
    ∃ t, step { start with pc := 254 } = .next t ∧ t.status = .faulted := ⟨_, rfl, by decide⟩
theorem witness_HaltedOnlyThroughHlt :
    ∃ t, step (place start 0 [0x01]) = .next t ∧ (place start 0 [0x01]).pc.toNat ≤ 253 ∧ t.status = .halted :=
  ⟨_, rfl, by decide, by decide⟩
/-- SP 0xF4, PUSH R0 with R0 = 0x01 (HLT) and with R0 = 0 (illegal). -/
theorem witness_PushedByteIsFetched :
    start.status = .running ∧ start.x[7] ≠ 0 ∧ (start.x[7] - 1).toNat ≤ 253 ∧ (0 : Reg) ≠ 7 ∧
      (withRegisters [(0, 1)]).cfg.opcodes.byteOf .hlt = (withRegisters [(0, 1)]).x[0] ∧
      ∀ k, start.cfg.opcodes.byteOf k ≠ start.x[0] :=
  ⟨by decide, by decide, by decide, by decide, by decide, by intro k; cases k <;> decide⟩
/-- HLT at 0 and the byte at 1; NOT under ONES_COMPLEMENT at 0 and the byte at 2; PUSH and POP at 253 and
the byte at 255, with the stack cells 0xF3 and 0xF4 elsewhere. -/
theorem witness_UnusedFetchedByteHasNoEffect :
    ((place start 0 [0x01]).cfg.opcodes.mnemonicOf ((place start 0 [0x01]).mem.read 0) = some .hlt ∧
      Mnemonic.hlt.operandCount < 1 ∧ ∃ t, step (place start 0 [0x01]) = .next t) ∧
    ((place onesStart 0 [0x69]).cfg.opcodes.mnemonicOf ((place onesStart 0 [0x69]).mem.read 0) = some .not ∧
      (place onesStart 0 [0x69]).cfg.notSemantics = .onesComplement ∧ Mnemonic.not.operandCount < 2 ∧
      ∃ t, step (place onesStart 0 [0x69]) = .next t) ∧
    (start.cfg.opcodes.mnemonicOf ((place start 253 [0x45]).mem.read 253) = some .push ∧
      Mnemonic.push.operandCount < 2 ∧ start.x[7] ≠ 0 ∧ 253 + 2 ≠ start.pushAddr.toNat ∧
      ∃ t, step { place start 253 [0x45] with pc := 253 } = .next t) ∧
    start.cfg.opcodes.mnemonicOf ((place start 253 [0x46]).mem.read 253) = some .pop ∧
      Mnemonic.pop.operandCount < 2 ∧ start.x[7] ≠ 255 ∧ 253 + 2 ≠ start.x[7].toNat ∧
      ∃ t, step { place start 253 [0x46] with pc := 253 } = .next t :=
  ⟨⟨by decide, by decide, _, rfl⟩, ⟨by decide, by decide, by decide, _, rfl⟩,
    ⟨by decide, by decide, by decide, by decide, _, rfl⟩, by decide, by decide, by decide, by decide, _, rfl⟩
theorem witness_NotUnderDefaultsEndsTheRun :
    (place start 0 [0x69, 0, 1]).cfg = Config.default ∧ (place start 0 [0x69, 0, 1]).mem.read 0 = 0x69 ∧
      ∃ t, step (place start 0 [0x69, 0, 1]) = .next t ∧ t.status = .running := ⟨rfl, by decide, _, rfl, by decide⟩
theorem witness_DecodeOfEncodeIsIdentity :
    encode OpcodeMap.ls8 (.push 3) ++ [0x01] = 0x45 :: 3 :: 0x01 :: [] := by decide
theorem witness_InstructionLengthIsOperandFieldPlusOne :
    decode OpcodeMap.ls8 0x45 3 1 = .ok (.push 3) ∧ 0xC0 ≤ (0xC0 : Byte).toNat := by decide
theorem witness_ExactlySeventeenOpcodesDecode : ¬ ∃ i, decode OpcodeMap.ls8 0 0 0 = .ok i := by
  rintro ⟨i, h⟩; cases h
/-- The launch state of R182 meets the invariant, and so does the state after its first step. -/
theorem start_inv : start.Inv :=
  ⟨by decide, by decide, by decide, by decide, fun f h => by cases h⟩
theorem witness_StepKeepsInvariant : start.Inv ∧ ∃ t, step start = .next t := ⟨start_inv, _, rfl⟩
theorem witness_ResetAndPortsKeepInvariant : start.Inv := start_inv
theorem witness_RunEndsInExactlyOneWay :
    start.Inv ∧ start.status ≠ .idle ∧ runEnd 1 start ≠ .unfinished ∧ runEnd 0 start = .unfinished :=
  ⟨start_inv, by decide, by decide, by decide⟩
theorem witness_BootGivesLaunchState :
    ([0x01] : List Byte).length ≤ 256 ∧ 256 < (List.replicate 257 (0 : Byte)).length :=
  ⟨by decide, by rw [List.length_replicate]; decide⟩
theorem witness_LoadPortWritesOnlyInIdle : State.reset.status = .idle ∧ start.status ≠ .idle := by decide
theorem witness_FaultPortsShowTheRecord : start.fault = none := by decide
/-- A text that parses; a value of 255 and one of 256 between blanks and before a comment; a character that
is no digit, a blank between digits, and blanks before `#` with no value. -/
theorem witness_LoadErrorHasThreeCauses :
    parseProgram ["00000001".toList] = .ok [0x01] ∧
      BlankLine [' ', '\t'] ∧ BlankLine ['\r'] ∧ ("# c".toList).head? = some '#' ∧
      DigitLine "11111111".toList ∧ DigitLine "100000000".toList ∧
      '#' ∉ "1".toList ∧ 'b' ∉ ['0', '1', ' ', '\t', '\r', '#'] :=
  ⟨by decide, by simp [BlankLine], by simp [BlankLine], by decide, by simp [DigitLine], by simp [DigitLine],
    by decide, by decide⟩
/-- The values at both sides of the bound, and the two malformed shapes that test_parse_malformed leaves. -/
theorem test_parse_value_bounds :
    parseLine " 011111111\r".toList = .ok (some 255) ∧
      parseLine "100000000#".toList = .error .malformedLine ∧
      parseLine "0b1".toList = .error .malformedLine ∧ parseLine "1 1".toList = .error .malformedLine := by
  decide
/-- A line of blanks, and the empty line. -/
theorem witness_BinaryLineIsItsByte : BlankLine [' ', '\r'] ∧ BlankLine [] := by simp [BlankLine]
/-- R69: LDI's byte as a line of text. -/
theorem test_binaryLine : binaryLine 0x82 = "10000010".toList := by decide
/-- A missing file, a text with a malformed line, and a text without. -/
theorem witness_LoadErrorLeavesCoreIdle :
    (bootProgram 0 start none).error ≠ none ∧ (bootProgram 1 start (some ["2".toList])).error ≠ none ∧
      (bootProgram 0 start (some ["00000001".toList])).error = none := by decide
/-- One row for 0x01 under the default map, and none for 0x00. -/
theorem witness_OneRowMatchesOrNone :
    OpcodeMap.ls8.byteOf .hlt = 0x01 ∧ ∀ k, OpcodeMap.ls8.byteOf k ≠ 0x00 :=
  ⟨by decide, by intro k; cases k <;> decide⟩
end Sys2Proof.Tests
end

section
/-! What FL can be seen by (spec/10_state.md R27 to R29). Two answers are compared up to FL, and each
operand form carries the comparison from its continuations to the whole; an instruction that tests
FL nowhere is then built from these forms and from next states that differ in FL only. -/

namespace Sys2Proof.Machine

/-! CMP, JEQ and JNE on registers that exist -/

theorem exec_cmp_regByte (s : State) (a b : Reg) :
    exec (.cmp (regByte a) (regByte b)) s =
      .next ((s.setFl (compareFlags (s.reg a) (s.reg b))).advance .cmp) := by
  simp only [exec, execCmp, withRegs, withReg_ofNat]

theorem exec_jeq_regByte (s : State) (r : Reg) :
    exec (.jeq (regByte r)) s =
      .next (s.setPc (if s.fl = flagEqual then zext9 (s.reg r) else s.nextPc)) := by
  simp only [exec, execJeq, withReg_ofNat]
  by_cases h : s.fl = flagEqual <;> simp [h, State.flagsSayEqual, jumpTo]

theorem exec_jne_regByte (s : State) (r : Reg) :
    exec (.jne (regByte r)) s =
      .next (s.setPc (if s.fl = flagEqual then s.nextPc else zext9 (s.reg r))) := by
  simp only [exec, execJne, withReg_ofNat]
  by_cases h : s.fl = flagEqual <;> simp [h, State.flagsSayEqual, jumpTo]

theorem compareFlags_of_gt {u v : Byte} (h : v.toNat < u.toNat) : compareFlags u v = flagGreater := by
  simp [compareFlags, h, h.ne']

theorem compareFlags_of_lt {u v : Byte} (h : u.toNat < v.toNat) : compareFlags u v = flagLess := by
  simp [compareFlags, h.ne, h.le.not_gt]

/-! Answers that agree up to FL -/

/-- Both answers are next states, equal in every field but FL. -/
def SameButFlags (p q : Result) : Prop :=
  ∃ t u, p = .next t ∧ q = .next u ∧ { u with fl := t.fl } = t

theorem SameButFlags.exists_next {p q : Result} {t : State} (h : SameButFlags p q) (ht : p = .next t) :
    ∃ u, q = .next u ∧ { u with fl := t.fl } = t := by
  obtain ⟨t', u, hp, hq, heq⟩ := h
  obtain rfl : t' = t := Host.Outcome.next.inj (hp.symm.trans ht)
  exact ⟨u, hq, heq⟩

/-- Next states written with the same updates agree up to FL by computation, hence the default proof. -/
theorem sameButFlags_next {t u : State} (h : { u with fl := t.fl } = t := by rfl) :
    SameButFlags (.next t) (.next u) := ⟨t, u, rfl, rfl, h⟩

/-- A conditional whose condition does not depend on FL agrees up to FL if its branches do. -/
theorem sameButFlags_ite {c d : Prop} [Decidable c] [Decidable d] {p p' q q' : Result} (hcd : c ↔ d)
    (hp : SameButFlags p q) (hp' : SameButFlags p' q') :
    SameButFlags (if c then p else p') (if d then q else q') := by
  by_cases hc : c
  · rwa [if_pos hc, if_pos (hcd.mp hc)]
  · rwa [if_neg hc, if_neg (hcd.not.mp hc)]

section
variable (s : State) (f g : FlagWord)

theorem sameButFlags_raise (k : FaultKind) (info : PcWord) :
    SameButFlags (raise k info (s.setFl f)) (raise k info (s.setFl g)) := sameButFlags_next

theorem sameButFlags_withReg (b : Byte) {k l : Reg → Result} (h : ∀ r, SameButFlags (k r) (l r)) :
    SameButFlags (withReg b (s.setFl f) k) (withReg b (s.setFl g) l) := by
  by_cases hb : b.toNat < 8
  · rw [withReg_of_lt hb, withReg_of_lt hb]; exact h _
  · rw [withReg_of_ge (Nat.not_lt.mp hb), withReg_of_ge (Nat.not_lt.mp hb)]
    exact sameButFlags_raise s f g _ _

theorem sameButFlags_withRegs (a b : Byte) {k l : Reg → Reg → Result}
    (h : ∀ p q, SameButFlags (k p q) (l p q)) :
    SameButFlags (withRegs a b (s.setFl f) k) (withRegs a b (s.setFl g) l) :=
  sameButFlags_withReg s f g a fun p => sameButFlags_withReg s f g b (h p)

theorem sameButFlags_withByte (a : Nat) {k l : Byte → Result} (h : ∀ v, SameButFlags (k v) (l v)) :
    SameButFlags (withByte a (s.setFl f) k) (withByte a (s.setFl g) l) :=
  sameButFlags_ite Iff.rfl (h _) (sameButFlags_raise s f g _ _)

theorem sameButFlags_withPushRoom {k l : Result} (h : SameButFlags k l) :
    SameButFlags (withPushRoom (s.setFl f) k) (withPushRoom (s.setFl g) l) :=
  sameButFlags_ite Iff.rfl (sameButFlags_raise s f g _ _) h

theorem sameButFlags_withPopped {k l : Byte → Result} (h : ∀ v, SameButFlags (k v) (l v)) :
    SameButFlags (withPopped (s.setFl f) k) (withPopped (s.setFl g) l) :=
  sameButFlags_ite Iff.rfl (sameButFlags_raise s f g _ _) (h _)

theorem sameButFlags_aluBinary (k : Mnemonic) (op : Byte → Byte → Byte) (a b : Byte) :
    SameButFlags (aluBinary k op a b (s.setFl f)) (aluBinary k op a b (s.setFl g)) :=
  sameButFlags_withRegs s f g a b fun _ _ => sameButFlags_next

theorem sameButFlags_execNot (a : Byte) :
    SameButFlags (execNot a (s.setFl f)) (execNot a (s.setFl g)) := by
  unfold execNot
  simp only [State.setFl_cfg]
  cases s.cfg.notSemantics with
  | referenceInequality =>
    exact sameButFlags_withByte s f g _ fun b => sameButFlags_aluBinary s f g _ _ a b
  | onesComplement => exact sameButFlags_withReg s f g a fun _ => sameButFlags_next

/-- JEQ and JNE ask of FL only whether it is EQUAL. -/
theorem flagsSayEqual_setFl_iff (hfg : f = flagEqual ↔ g = flagEqual) :
    (s.setFl f).flagsSayEqual = true ↔ (s.setFl g).flagsSayEqual = true :=
  decide_eq_true_iff.trans (hfg.trans decide_eq_true_iff.symm)

/-- No instruction tells `f` and `g` apart, unless it is a JEQ or a JNE and just one of them is EQUAL. -/
theorem exec_sameButFlags (i : Instr)
    (h : (∀ a, i ≠ .jeq a ∧ i ≠ .jne a) ∨ (f = flagEqual ↔ g = flagEqual)) :
    SameButFlags (exec i (s.setFl f)) (exec i (s.setFl g)) := by
  cases i with
  | hlt => exact sameButFlags_next
  | ret =>
    simp only [exec, execRet]
    exact sameButFlags_withPopped s f g fun _ => sameButFlags_next
  | push a =>
    simp only [exec, execPush]
    exact sameButFlags_withReg s f g a fun _ => sameButFlags_withPushRoom s f g sameButFlags_next
  | pop a =>
    simp only [exec, execPop]
    exact sameButFlags_withReg s f g a fun _ => sameButFlags_withPopped s f g fun _ =>
      sameButFlags_ite Iff.rfl (sameButFlags_raise s f g _ _) sameButFlags_next
  | prn a =>
    simp only [exec, execPrn]
    exact sameButFlags_withReg s f g a fun _ => sameButFlags_next
  | call a =>
    simp only [exec, execCall]
    exact sameButFlags_withReg s f g a fun _ => sameButFlags_withPushRoom s f g sameButFlags_next
  | jmp a =>
    simp only [exec, execJmp]
    exact sameButFlags_withReg s f g a fun _ => sameButFlags_next
  | jeq a =>
    have hfg := h.resolve_left fun hi => (hi a).1 rfl
    simp only [exec, execJeq]
    exact sameButFlags_withReg s f g a fun _ =>
      sameButFlags_ite (flagsSayEqual_setFl_iff s f g hfg) sameButFlags_next sameButFlags_next
  | jne a =>
    have hfg := h.resolve_left fun hi => (hi a).2 rfl
    simp only [exec, execJne]
    exact sameButFlags_withReg s f g a fun _ =>
      sameButFlags_ite (flagsSayEqual_setFl_iff s f g hfg) sameButFlags_next sameButFlags_next
  | not a => exact sameButFlags_execNot s f g a
  | ldi a v =>
    simp only [exec, execLdi]
    exact sameButFlags_withReg s f g a fun _ => sameButFlags_next
  | cmp a b =>
    simp only [exec, execCmp]
    exact sameButFlags_withRegs s f g a b fun _ _ => sameButFlags_next
  | add a b | mul a b | and a b | or a b | xor a b => exact sameButFlags_aluBinary s f g _ _ a b

end

/-- Settles O24: the branches and CMP by their rules, the two noninterference clauses by
`exec_sameButFlags`. -/
theorem onlyEqualIsObservable : Obligations.OnlyEqualIsObservable := by
  unfold Obligations.OnlyEqualIsObservable
  refine ⟨fun s r => ⟨exec_jeq_regByte s r, exec_jne_regByte s r⟩, ?_, fun s a b => ⟨?_, ?_⟩, ?_⟩
  · intro i s t f g hi ht
    exact (exec_sameButFlags s f g i (.inl hi)).exists_next ht
  · exact fun hgt => ⟨_, exec_cmp_regByte s a b, compareFlags_of_gt hgt⟩
  · exact fun hlt => ⟨_, exec_cmp_regByte s a b, compareFlags_of_lt hlt⟩
  · intro i s t f g hfg ht
    exact (exec_sameButFlags s f g i (.inr hfg)).exists_next ht

end Sys2Proof.Machine
end

section
/-! The length of an instruction and the row a byte selects, under every opcode map
(spec/30_encoding.md R60, R62, R65, R66). Every opcode byte is some row's byte or no row's; the decoder's
answer is stated for each of the two. -/

namespace Sys2Proof

/-! A byte that is some row's -/

@[simp] theorem operands_assemble (k : Mnemonic) (a b : Byte) :
    (assemble k a b).operands = [a, b].take k.operandCount := by
  cases k <;> rfl

theorem Mnemonic.operandCount_le_two (k : Mnemonic) : k.operandCount ≤ 2 := by
  cases k <;> decide

theorem OpcodeMap.instrLength_byteOf_le_three (m : OpcodeMap) (k : Mnemonic) :
    instrLength (m.byteOf k) ≤ 3 := by
  rw [m.instrLength_byteOf]
  exact Nat.succ_le_succ k.operandCount_le_two

/-- No row's bits [7:6] are 11. -/
theorem OpcodeMap.byteOf_lt_0xC0 (m : OpcodeMap) (k : Mnemonic) : (m.byteOf k).toNat < 0xC0 := by
  have hfield := (operandField_eq _).symm.trans (m.operandField_byteOf k)
  have hcount := k.operandCount_le_two
  omega

@[simp] theorem decode_byteOf (m : OpcodeMap) (k : Mnemonic) (a b : Byte) :
    decode m (m.byteOf k) a b = .ok (assemble k a b) := by
  simp [decode]

/-- The encoding of an assembled instruction is the leading bytes of those it was assembled from. -/
theorem encode_assemble (m : OpcodeMap) (k : Mnemonic) (a b : Byte) :
    encode m (assemble k a b) = [m.byteOf k, a, b].take (instrLength (m.byteOf k)) := by
  simp [encode]

theorem length_encode_assemble (m : OpcodeMap) (k : Mnemonic) (a b : Byte) :
    (encode m (assemble k a b)).length = instrLength (m.byteOf k) := by
  rw [encode_assemble]
  exact List.length_take_of_le (m.instrLength_byteOf_le_three k)

/-! A byte that is no row's -/

theorem decode_of_no_row {m : OpcodeMap} {op : Byte} (h : ∀ k, m.byteOf k ≠ op) (a b : Byte) :
    decode m op a b = .error (.illegalOpcode op) := by
  rcases decode_cases m op a b with ⟨k, hk, -⟩ | ⟨-, herr⟩
  · exact absurd hk (h k)
  · exact herr

/-- Settles O41: a row's byte by `encode_assemble`, and it is below 0xC0; any other byte decodes to no
instruction. -/
theorem instructionLengthIsOperandFieldPlusOne :
    Obligations.InstructionLengthIsOperandFieldPlusOne := by
  unfold Obligations.InstructionLengthIsOperandFieldPlusOne
  intro m op a b
  by_cases hrow : ∃ k, m.byteOf k = op
  · obtain ⟨k, rfl⟩ := hrow
    refine ⟨fun i hi => ?_, fun hge => absurd (m.byteOf_lt_0xC0 k) hge.not_gt⟩
    obtain rfl := Except.ok.inj ((decode_byteOf m k a b).symm.trans hi)
    exact ⟨encode_assemble m k a b, m.instrLength_byteOf_le_three k⟩
  · have herr := decode_of_no_row (not_exists.mp hrow) a b
    exact ⟨fun i hi => (nomatch herr.symm.trans hi), fun _ => herr⟩

/-- Settles O52: two rows with one byte are the same row (`OpcodeMap.byteOf_inj`), and that row's
instruction is assembled from any operand bytes. -/
theorem oneRowMatchesOrNone : Obligations.OneRowMatchesOrNone := by
  unfold Obligations.OneRowMatchesOrNone
  intro m op
  by_cases hrow : ∃ k, m.byteOf k = op
  · obtain ⟨k, rfl⟩ := hrow
    exact .inl ⟨k, rfl, fun j hj => m.byteOf_inj hj, fun a b =>
      ⟨assemble k a b, decode_byteOf m k a b, mnemonic_assemble k a b, length_encode_assemble m k a b⟩⟩
  · have hnone := not_exists.mp hrow
    exact .inr ⟨hnone, decode_of_no_row hnone⟩

end Sys2Proof
end

section
/-! Decoding what the encoder gives, and the rows of the default map (spec/30_encoding.md R60, R64, R66). -/

namespace Sys2Proof

/-- Bytes that begin with an instruction's operands are enough to assemble it. -/
theorem assemble_of_operands {i : Instr} {tail rest : List Byte} {a b : Byte}
    (h : i.operands ++ tail = a :: b :: rest) : assemble i.mnemonic a b = i := by
  cases i with
  | hlt | ret => rfl
  | push | pop | prn | call | jmp | jeq | jne | not =>
    obtain ⟨rfl, -⟩ := List.cons.inj h
    rfl
  | ldi | add | mul | cmp | and | or | xor =>
    obtain ⟨rfl, hrest⟩ := List.cons.inj h
    obtain ⟨rfl, -⟩ := List.cons.inj hrest
    rfl

/-- Settles O40: the opcode byte finds the instruction's row (`decode_byteOf`), and the operands behind it
assemble the instruction. -/
theorem decodeOfEncodeIsIdentity : Obligations.DecodeOfEncodeIsIdentity := by
  unfold Obligations.DecodeOfEncodeIsIdentity
  intro m i tail rest op a b h
  obtain ⟨rfl, hops⟩ := List.cons.inj h
  rw [decode_byteOf, assemble_of_operands hops]

/-- The decoder accepts exactly the bytes of the map's rows. -/
theorem decode_ok_iff (m : OpcodeMap) (op a b : Byte) :
    (∃ i, decode m op a b = .ok i) ↔ op ∈ Mnemonic.all.map m.byteOf := by
  rw [List.mem_map]
  constructor
  · rintro ⟨i, hi⟩
    rcases decode_cases m op a b with ⟨k, hk, -⟩ | ⟨-, herr⟩
    · exact ⟨k, k.mem_all, hk⟩
    · nomatch herr.symm.trans hi
  · rintro ⟨k, -, rfl⟩
    exact ⟨_, decode_byteOf m k a b⟩

theorem decode_of_not_ok {m : OpcodeMap} {op a b : Byte} (h : ¬ ∃ i, decode m op a b = .ok i) :
    decode m op a b = .error (.illegalOpcode op) := by
  rcases decode_cases m op a b with ⟨k, -, hok⟩ | ⟨-, herr⟩
  · exact absurd ⟨_, hok⟩ h
  · exact herr

/-- Settles O42: `decode_ok_iff` at the default map, whose rows' bytes are the 17 listed ones. -/
theorem exactlySeventeenOpcodesDecode : Obligations.ExactlySeventeenOpcodesDecode := by
  unfold Obligations.ExactlySeventeenOpcodesDecode
  exact fun op a b => ⟨decode_ok_iff OpcodeMap.ls8 op a b, decode_of_not_ok⟩

/-- Settles O39: each row of the table is `decode_byteOf` at the default map. -/
theorem tableWordsDecode : Obligations.TableWordsDecode := by
  unfold Obligations.TableWordsDecode
  intro a b
  have row (k : Mnemonic) := decode_byteOf OpcodeMap.ls8 k a b
  exact ⟨row .hlt, row .ret, row .push, row .pop, row .prn, row .call, row .jmp, row .jeq, row .jne,
    row .not, row .ldi, row .add, row .mul, row .cmp, row .and, row .or, row .xor⟩

end Sys2Proof
end

section
/-! What a step runs (spec/40_dispatch.md R80 to R87): the rule of each of its outcomes, and from them that a
step always exists while RUNNING. -/

namespace Sys2Proof.Machine

section Rules
variable {s : State}

theorem step_of_running (hrun : s.status = .running) : step s = stepRunning s := by
  simp [step, hrun]

theorem fetch_of_le (hpc : s.pc.toNat ≤ 253) (k : Byte → Byte → Byte → Result) :
    fetch s k =
      k (s.mem.read s.pc.toNat) (s.mem.read (s.pc.toNat + 1)) (s.mem.read (s.pc.toNat + 2)) := by
  rcases fetch_cases s k with ⟨-, hfetch⟩ | ⟨hge, -⟩
  · exact hfetch
  · omega

/-- Where the fetch fails, the step is its fault (R81). -/
theorem step_of_fetch_past (hrun : s.status = .running) (hpc : 254 ≤ s.pc.toNat) :
    step s = .next (s.enterFault .outOfBoundsMemory (BitVec.ofNat 9 (max s.pc.toNat 256))) := by
  rw [step_of_running hrun, stepRunning]
  rcases fetch_cases s _ with ⟨hle, -⟩ | ⟨-, hfetch⟩
  · omega
  · exact hfetch

/-- Of the pcs that the machine can hold (R24), each fails the fetch at address 256. -/
theorem step_of_fetch_at_end (hrun : s.status = .running) (hge : 254 ≤ s.pc.toNat)
    (hle : s.pc.toNat ≤ 256) : step s = .next (s.enterFault .outOfBoundsMemory 256) := by
  rw [step_of_fetch_past hrun hge, max_eq_right hle]
  rfl

theorem step_of_decode_ok (hrun : s.status = .running) (hpc : s.pc.toNat ≤ 253) {i : Instr}
    (hi : decode s.cfg.opcodes (s.mem.read s.pc.toNat) (s.mem.read (s.pc.toNat + 1))
      (s.mem.read (s.pc.toNat + 2)) = .ok i) : step s = exec i s := by
  rw [step_of_running hrun, stepRunning, fetch_of_le hpc, hi]

/-- The step on a row's byte is that row's instruction with the two bytes behind it. -/
theorem step_of_row (hrun : s.status = .running) (hpc : s.pc.toNat ≤ 253) {k : Mnemonic}
    (hk : s.cfg.opcodes.byteOf k = s.mem.read s.pc.toNat) :
    step s = exec (assemble k (s.mem.read (s.pc.toNat + 1)) (s.mem.read (s.pc.toNat + 2))) s :=
  step_of_decode_ok hrun hpc (hk ▸ decode_byteOf _ k _ _)

theorem step_of_no_row (hrun : s.status = .running) (hpc : s.pc.toNat ≤ 253)
    (hno : ∀ k, s.cfg.opcodes.byteOf k ≠ s.mem.read s.pc.toNat) :
    step s = .next (s.enterFault .illegalInstruction (zext9 (s.mem.read s.pc.toNat))) := by
  rw [step_of_running hrun, stepRunning, fetch_of_le hpc, decode_of_no_row hno]
  rfl

theorem step_ne_next_of_not_running (h : s.status ≠ .running) (t : State) : step s ≠ .next t :=
  fun ht => h (step_next ht).1

end Rules

/-- Every instruction answers a next state. -/
theorem exec_exists_next (i : Instr) (s : State) : ∃ t, exec i s = .next t := by
  rcases exec_cases i s with ⟨k, info, -, hraise⟩ | ⟨t, -, ht⟩
  · exact ⟨s.enterFault k info, hraise⟩
  · exact ⟨t, ht⟩

theorem step_exists_next {s : State} (hrun : s.status = .running) : ∃ t, step s = .next t := by
  by_cases hpc : s.pc.toNat ≤ 253
  · by_cases hrow : ∃ k, s.cfg.opcodes.byteOf k = s.mem.read s.pc.toNat
    · obtain ⟨k, hk⟩ := hrow
      rw [step_of_row hrun hpc hk]
      exact exec_exists_next _ s
    · exact ⟨_, step_of_no_row hrun hpc (not_exists.mp hrow)⟩
  · exact ⟨_, step_of_fetch_past hrun (by omega)⟩

/-- Settles O27: `step_of_decode_ok`. -/
theorem stepRunsDecodedInstruction : Obligations.StepRunsDecodedInstruction := by
  unfold Obligations.StepRunsDecodedInstruction
  exact fun s i hrun hpc hi => step_of_decode_ok hrun hpc hi

/-- Settles O28: `step_of_fetch_past`, whose address is 256 for every pc up to 255 and pc itself above. -/
theorem fetchPastMemoryFaults : Obligations.FetchPastMemoryFaults := by
  unfold Obligations.FetchPastMemoryFaults
  intro s hrun hpc
  split
  · exact step_of_fetch_at_end hrun hpc (by omega)
  · rw [step_of_fetch_past hrun hpc, max_eq_left (by omega), BitVec.ofNat_toNat, BitVec.setWidth_eq]

/-- Settles O29: no row matches, and at pc 254 or 255 the fetch fails before that is seen. -/
theorem unknownOpcodeFaults : Obligations.UnknownOpcodeFaults := by
  unfold Obligations.UnknownOpcodeFaults
  exact fun s hrun hno => ⟨fun hpc => step_of_no_row hrun hpc hno,
    fun hpc => step_of_fetch_at_end hrun (by omega) (by omega)⟩

/-- Settles O32: `step_exists_next` and `exec_exists_next`. -/
theorem runningMachineAlwaysSteps : Obligations.RunningMachineAlwaysSteps := by
  unfold Obligations.RunningMachineAlwaysSteps
  exact ⟨fun s hrun => step_exists_next hrun, exec_exists_next⟩

end Sys2Proof.Machine
end

section
/-! What an instruction leaves unchanged (spec/10_state.md, spec/20_memory.md R48, spec/41_register_io.md
R102), the inversion of a step, and the invariant of spec/10_state.md and spec/60_exceptions.md R160. -/

namespace Sys2Proof

/-- The rows whose instructions write pc themselves (R86). -/
def Mnemonic.WritesPc : Mnemonic → Prop
  | .call | .ret | .jmp | .jeq | .jne => True
  | .hlt | .push | .pop | .prn | .not | .ldi | .add | .mul | .cmp | .and | .or | .xor => False

/-- The rows whose instructions store (R48). -/
def Mnemonic.Stores : Mnemonic → Prop
  | .push | .call => True
  | .hlt | .ret | .pop | .prn | .jmp | .jeq | .jne | .not | .ldi | .add | .mul | .cmp | .and | .or
  | .xor => False

end Sys2Proof

namespace Sys2Proof.Machine

/-! The effect of an instruction that raised nothing -/

/-- What every instruction of a row keeps of the state, and where it may change it. -/
structure Frame (k : Mnemonic) (s t : State) : Prop where
  cfg : t.cfg = s.cfg
  fault : t.fault = s.fault
  status : t.status = if k = .hlt then .halted else s.status
  pc : t.pc = s.pc + BitVec.ofNat 9 (k.operandCount + 1) ∨
    k.WritesPc ∧ ∃ b : Byte, t.pc = zext9 b
  fl : t.fl = s.fl ∨ k = .cmp ∧ LegalFlags t.fl
  mem : t.mem = s.mem ∨ k.Stores ∧ ∃ v, t.mem = s.mem.write s.pushAddr.toNat v
  out : t.out = s.out ∨ k = .prn

theorem legalFlags_compareFlags (u v : Byte) : LegalFlags (compareFlags u v) := by
  rcases compareFlags_cases u v with ⟨-, h⟩ | ⟨-, h⟩ | ⟨-, h⟩
  · exact .inr (.inl h)
  · exact .inr (.inr (.inl h))
  · exact .inr (.inr (.inr h))

theorem frame_setReg_advance (s : State) (r : Reg) (v : Byte) {k : Mnemonic} (hk : k ≠ .hlt) :
    Frame k s ((s.setReg r v).advance k) where
  cfg := rfl
  fault := rfl
  status := (if_neg hk).symm
  pc := .inl (State.advance_pc_length _ k)
  fl := .inl rfl
  mem := .inl rfl
  out := .inl rfl

/-- A jump or a branch: only pc changes, by a target or by the length of the instruction. -/
theorem frame_setPc (s : State) (k : Mnemonic) (hk : k.WritesPc) {p : PcWord}
    (hp : p = s.pc + BitVec.ofNat 9 (k.operandCount + 1) ∨ ∃ b : Byte, p = zext9 b) :
    Frame k s (s.setPc p) where
  cfg := rfl
  fault := rfl
  status := (if_neg (by rintro rfl; exact hk)).symm
  pc := hp.imp_right fun hb => ⟨hk, hb⟩
  fl := .inl rfl
  mem := .inl rfl
  out := .inl rfl

theorem Effect.frame {i : Instr} {s t : State} (h : Effect i s t) : Frame i.mnemonic s t := by
  cases i with
  | hlt =>
    subst h
    exact ⟨rfl, rfl, rfl, .inl (State.advance_pc_length _ _), .inl rfl, .inl rfl, .inl rfl⟩
  | ret =>
    obtain ⟨-, rfl⟩ := h
    exact ⟨rfl, rfl, rfl, .inr ⟨trivial, _, rfl⟩, .inl rfl, .inl rfl, .inl rfl⟩
  | push a =>
    obtain ⟨r, -, -, rfl⟩ := h
    exact ⟨rfl, rfl, rfl, .inl (State.advance_pc_length _ _), .inl rfl, .inr ⟨trivial, _, rfl⟩,
      .inl rfl⟩
  | pop a =>
    obtain ⟨r, -, -, -, rfl⟩ := h
    exact ⟨rfl, rfl, rfl, .inl (State.advance_pc_length _ _), .inl rfl, .inl rfl, .inl rfl⟩
  | prn a =>
    obtain ⟨r, -, rfl⟩ := h
    exact ⟨rfl, rfl, rfl, .inl (State.advance_pc_length _ _), .inl rfl, .inl rfl, .inr rfl⟩
  | call a =>
    obtain ⟨r, -, -, rfl⟩ := h
    exact ⟨rfl, rfl, rfl, .inr ⟨trivial, _, rfl⟩, .inl rfl, .inr ⟨trivial, _, rfl⟩,
      .inl rfl⟩
  | jmp a =>
    obtain ⟨r, -, rfl⟩ := h
    exact frame_setPc s .jmp trivial (.inr ⟨_, rfl⟩)
  | jeq a =>
    obtain ⟨r, -, rfl⟩ := h
    refine frame_setPc s .jeq trivial ?_
    split
    · exact .inr ⟨_, rfl⟩
    · exact .inl rfl
  | jne a =>
    obtain ⟨r, -, rfl⟩ := h
    refine frame_setPc s .jne trivial ?_
    split
    · exact .inl rfl
    · exact .inr ⟨_, rfl⟩
  | cmp a b =>
    obtain ⟨p, q, -, -, rfl⟩ := h
    exact ⟨rfl, rfl, rfl, .inl (State.advance_pc_length _ _), .inr ⟨rfl, legalFlags_compareFlags _ _⟩,
      .inl rfl, .inl rfl⟩
  | not a =>
    obtain ⟨r, v, -, rfl, -⟩ := h
    exact frame_setReg_advance s r v nofun
  | ldi a v =>
    obtain ⟨r, -, rfl⟩ := h
    exact frame_setReg_advance s r v nofun
  | add a b | mul a b | and a b | or a b | xor a b =>
    obtain ⟨p, q, -, -, rfl⟩ := h
    exact frame_setReg_advance s p _ nofun

/-! The inversion of a step -/

/-- The faults a step can raise, with what R160 says of their datum. -/
inductive StepRaises (s : State) : FaultKind → PcWord → Prop where
  | fetch (hpc : 254 ≤ s.pc.toNat) :
      StepRaises s .outOfBoundsMemory (BitVec.ofNat 9 (max s.pc.toNat 256))
  | opcode (hno : s.cfg.opcodes.mnemonicOf (s.mem.read s.pc.toNat) = none) :
      StepRaises s .illegalInstruction (zext9 (s.mem.read s.pc.toNat))
  | register {info : PcWord} (hge : 8 ≤ info.toNat) (hle : info.toNat ≤ 255) :
      StepRaises s .outOfBoundsRegister info
  | overflow : StepRaises s .stackOverflow 0
  | underflow {info : PcWord} (hle : info.toNat ≤ 255) : StepRaises s .stackUnderflow info

/-- A fetched instruction raises nothing that the step does not allow: NOT's read at pc+2 is in bounds. -/
theorem ExecRaises.stepRaises {s : State} {k : FaultKind} {info : PcWord} (h : ExecRaises s k info)
    (hpc : s.pc.toNat ≤ 253) : StepRaises s k info := by
  rcases h with ⟨rfl, hge, hle⟩ | ⟨rfl, rfl⟩ | ⟨rfl, hle⟩ | ⟨-, hge⟩
  · exact .register hge hle
  · exact .overflow
  · exact .underflow hle
  · omega

/-- The effect of the step's instruction: a row of the map matches the byte at pc, and the instruction that
it assembles raised nothing. -/
structure StepEffect (s t : State) (k : Mnemonic) : Prop where
  pc_le : s.pc.toNat ≤ 253
  row : s.cfg.opcodes.mnemonicOf (s.mem.read s.pc.toNat) = some k
  effect : Effect (assemble k (s.mem.read (s.pc.toNat + 1)) (s.mem.read (s.pc.toNat + 2))) s t

theorem StepEffect.frame {s t : State} {k : Mnemonic} (h : StepEffect s t k) : Frame k s t := by
  simpa using h.effect.frame

/-- A step faults, changing nothing but the status and the record, or has the effect of its instruction. -/
theorem step_inversion {s t : State} (h : step s = .next t) :
    (∃ k info, StepRaises s k info ∧ t = s.enterFault k info) ∨ ∃ k, StepEffect s t k := by
  obtain ⟨-, ⟨hpc, rfl⟩ | ⟨-, hno, rfl⟩ | ⟨hpc, k, hk, hexec⟩⟩ := step_next h
  · exact .inl ⟨_, _, .fetch hpc, rfl⟩
  · exact .inl ⟨_, _, .opcode hno, rfl⟩
  · rcases exec_next hexec with ⟨k', info, hraise, rfl⟩ | heffect
    · exact .inl ⟨k', info, hraise.stepRaises hpc, rfl⟩
    · exact .inr ⟨k, hpc, hk ▸ OpcodeMap.mnemonicOf_byteOf _ k, heffect⟩

theorem StepEffect.status_of_running {s t : State} {k : Mnemonic} (h : StepEffect s t k)
    (hrun : s.status = .running) : t.status = if k = .hlt then .halted else .running := by
  rw [h.frame.status, hrun]

theorem StepEffect.not_faulted {s t : State} {k : Mnemonic} (h : StepEffect s t k)
    (hrun : s.status = .running) : t.status ≠ .faulted := by
  rw [h.status_of_running hrun]
  split <;> decide

/-! The invariant -/

/-- Outside FAULTED there is no record. -/
theorem State.Inv.fault_eq_none {s : State} (hs : s.Inv) (h : s.status ≠ .faulted) : s.fault = none := by
  simpa using mt hs.fault_iff.mpr h

/-- The datum of a raised fault is legal, in a state whose pc the machine can hold. -/
theorem StepRaises.legal {s : State} {k : FaultKind} {info : PcWord} (h : StepRaises s k info)
    (hpc : s.pc.toNat ≤ 256) : FaultRecord.Legal s.cfg.opcodes ⟨k, s.pc, info⟩ := by
  cases h with
  | fetch hge => exact ⟨by rw [max_eq_right hpc]; rfl, hge⟩
  | opcode hno => exact ⟨by simp only [BitVec.toNat_setWidth]; omega, by simpa using hno⟩
  | register hge hle => exact ⟨hge, hle⟩
  | overflow => rfl
  | underflow hle => exact hle

theorem State.Inv.enterFault {s : State} (hs : s.Inv) {k : FaultKind} {info : PcWord}
    (hraise : StepRaises s k info) : (s.enterFault k info).Inv where
  mem_wf := hs.mem_wf
  pc_le := hs.pc_le
  fl_legal := hs.fl_legal
  fault_iff := iff_of_true rfl rfl
  fault_legal := by
    rintro f ⟨⟩
    exact ⟨rfl, hraise.legal hs.pc_le⟩

/-- pc after a fetched instruction is at most 253 + 3, or a byte. -/
theorem StepEffect.pc_le_256 {s t : State} {k : Mnemonic} (h : StepEffect s t k) : t.pc.toNat ≤ 256 := by
  have hle := h.pc_le
  rcases h.frame.pc with hpc | ⟨-, b, hpc⟩
  · have hcount := k.operandCount_le_two
    rw [hpc, BitVec.toNat_add, BitVec.toNat_ofNat]
    omega
  · rw [hpc, BitVec.toNat_setWidth]
    omega

theorem State.Inv.of_stepEffect {s t : State} {k : Mnemonic} (hs : s.Inv) (hrun : s.status = .running)
    (h : StepEffect s t k) : t.Inv where
  mem_wf := by
    rcases h.frame.mem with hmem | ⟨-, v, hmem⟩
    · exact hmem ▸ hs.mem_wf
    · exact hmem ▸ Memory.write_wf hs.mem_wf s.pushAddr.isLt v
  pc_le := h.pc_le_256
  fl_legal := by
    rcases h.frame.fl with hfl | ⟨-, hfl⟩
    · exact hfl ▸ hs.fl_legal
    · exact hfl
  fault_iff := by
    rw [h.frame.fault, ← hs.fault_iff, hrun]
    exact iff_of_false (h.not_faulted hrun) (by decide)
  fault_legal := by
    have hnone := hs.fault_eq_none (by rw [hrun]; decide)
    rw [h.frame.fault, hnone]
    exact fun _ hf => nomatch hf

theorem State.Inv.step {s t : State} (hs : s.Inv) (h : Machine.step s = .next t) : t.Inv := by
  rcases step_inversion h with ⟨k, info, hraise, rfl⟩ | ⟨k, heffect⟩
  · exact hs.enterFault hraise
  · exact hs.of_stepEffect (step_next h).1 heffect

/-- Settles O43: a raised fault leaves the rest of the state and writes a legal record
(`State.Inv.enterFault`), and the effect of an instruction is bounded by its frame
(`State.Inv.of_stepEffect`). -/
theorem stepKeepsInvariant : Obligations.StepKeepsInvariant := by
  unfold Obligations.StepKeepsInvariant
  exact fun s t hs h => hs.step h

end Sys2Proof.Machine
end

section
/-! The frames of the machine: where registers, memory, FL, the output trace, pc and the parameters can
change, and what a fault leaves (spec/60_exceptions.md R162). -/

namespace Sys2Proof

@[simp] theorem length_operands (i : Instr) : i.operands.length = i.mnemonic.operandCount := by
  cases i <;> rfl

theorem length_encode (m : OpcodeMap) (i : Instr) :
    (encode m i).length = i.mnemonic.operandCount + 1 := by
  simp [encode]

end Sys2Proof

namespace Sys2Proof.Machine

/-- Writing one register changes no other. -/
theorem eq_of_set_ne {x : Vector Byte 8} {r q : Reg} {v : Byte} (h : (x.set r v)[q] ≠ x[q]) : q = r := by
  by_contra hne
  exact h (Vector.getElem_set_ne r.isLt q.isLt fun heq => hne (Fin.ext heq.symm))

/-- Settles O20: a fault changes no register, and each effect writes the registers that its rule names. -/
theorem onlyDestinationRegistersChange : Obligations.OnlyDestinationRegistersChange := by
  unfold Obligations.OnlyDestinationRegistersChange
  intro i s t q h hne
  rcases exec_next h with ⟨k, info, -, rfl⟩ | heffect
  · exact absurd rfl hne
  cases i with
  | hlt => exact hne (heffect ▸ rfl)
  | prn | jmp | jeq | jne =>
    obtain ⟨r, -, rfl⟩ := heffect
    exact hne rfl
  | cmp =>
    obtain ⟨p, p', -, -, rfl⟩ := heffect
    exact hne rfl
  | ret =>
    obtain ⟨-, rfl⟩ := heffect
    exact eq_of_set_ne hne
  | push | call =>
    obtain ⟨r, -, -, rfl⟩ := heffect
    exact eq_of_set_ne hne
  | pop a =>
    obtain ⟨r, rfl, -, -, rfl⟩ := heffect
    by_cases hq : q = 7
    · exact .inr hq
    · have hsp : ((s.setReg r (s.load s.sp)).incSp.advance .pop).x[q] = (s.x.set r (s.load s.sp))[q] :=
        not_imp_comm.mp eq_of_set_ne hq
      exact .inl (congrArg regByte (eq_of_set_ne (hsp ▸ hne)).symm)
  | ldi =>
    obtain ⟨r, rfl, rfl⟩ := heffect
    exact congrArg regByte (eq_of_set_ne hne).symm
  | not =>
    obtain ⟨r, v, rfl, rfl, -⟩ := heffect
    exact congrArg regByte (eq_of_set_ne hne).symm
  | add | mul | and | or | xor =>
    obtain ⟨p, p', rfl, -, rfl⟩ := heffect
    exact congrArg regByte (eq_of_set_ne hne).symm

/-- Only PUSH and CALL change memory. -/
theorem mem_eq_of_exec {i : Instr} {s t : State} (h : exec i s = .next t) (hi : ¬ i.mnemonic.Stores) :
    t.mem = s.mem := by
  rcases exec_next h with ⟨k, info, -, rfl⟩ | heffect
  · rfl
  · exact heffect.frame.mem.resolve_right fun hmem => hi hmem.1

/-- No instruction changes a byte off the push address. -/
theorem read_eq_of_exec {i : Instr} {s t : State} (h : exec i s = .next t) {n : Nat}
    (hn : n ≠ s.pushAddr.toNat) : t.mem.read n = s.mem.read n := by
  rcases exec_next h with ⟨k, info, -, rfl⟩ | heffect
  · rfl
  rcases heffect.frame.mem with hmem | ⟨-, v, hmem⟩
  · rw [hmem]
  · rw [hmem, Memory.read_write, if_neg hn]

/-- Settles O21: `read_eq_of_exec` for PUSH and CALL, `mem_eq_of_exec` for the others. -/
theorem onlyPushAndCallStore : Obligations.OnlyPushAndCallStore := by
  unfold Obligations.OnlyPushAndCallStore
  intro i s t h
  cases i with
  | push | call => exact fun n hn => read_eq_of_exec h hn
  | _ => exact fun n => congrArg (·.read n) (mem_eq_of_exec h id)

/-- Settles O22: of the effects of a step, only CMP's has another FL. -/
theorem onlyCmpWritesFlags : Obligations.OnlyCmpWritesFlags := by
  unfold Obligations.OnlyCmpWritesFlags
  intro s t h hne
  rcases step_inversion h with ⟨k, info, -, rfl⟩ | ⟨k, heffect⟩
  · exact absurd rfl hne
  · obtain ⟨rfl, -⟩ := heffect.frame.fl.resolve_left hne
    exact heffect.row

/-- Settles O23: of the effects of a step, only PRN's has another trace, and it appends one byte. -/
theorem onlyPrnEmits : Obligations.OnlyPrnEmits := by
  unfold Obligations.OnlyPrnEmits
  intro s t h
  rcases step_inversion h with ⟨k, info, -, rfl⟩ | ⟨k, heffect⟩
  · exact .inl rfl
  · refine heffect.frame.out.imp_right ?_
    rintro rfl
    obtain ⟨r, hr, rfl⟩ := heffect.effect
    exact ⟨heffect.row, r, hr, rfl⟩

/-- Settles O25: without a fault the instruction had its effect, whose frame advances pc unless the
instruction writes pc itself. -/
theorem sequentialAdvanceIsEncodingLength : Obligations.SequentialAdvanceIsEncodingLength := by
  unfold Obligations.SequentialAdvanceIsEncodingLength
  intro i s t h _ hfault hseq
  have hwrites : ¬ i.mnemonic.WritesPc := by
    cases i with
    | call | ret | jmp | jeq | jne => exact hseq.elim
    | _ => exact id
  rw [length_encode]
  rcases exec_next h with ⟨k, info, -, rfl⟩ | heffect
  · exact absurd rfl hfault
  · exact heffect.frame.pc.resolve_right fun hpc => hwrites hpc.1

/-- Settles O33: the inversion of a step, whose second case does not end in FAULTED. -/
theorem faultingStepChangesNothingElse : Obligations.FaultingStepChangesNothingElse := by
  unfold Obligations.FaultingStepChangesNothingElse
  intro s t h hfault
  rcases step_inversion h with ⟨k, info, -, rfl⟩ | ⟨k, heffect⟩
  · exact ⟨k, info, rfl⟩
  · exact absurd hfault (heffect.not_faulted (step_next h).1)

theorem StepRaises.kind_not_reserved {s : State} {k : FaultKind} {info : PcWord}
    (h : StepRaises s k info) : k ≠ .unsupportedOperation ∧ k ≠ .loadError := by
  cases h <;> decide

/-- Settles O34: `StepRaises` has neither of the two kinds. -/
theorem reservedFaultKindsNeverRaised : Obligations.ReservedFaultKindsNeverRaised := by
  unfold Obligations.ReservedFaultKindsNeverRaised
  intro s t h hfault
  rcases step_inversion h with ⟨k, info, hraise, rfl⟩ | ⟨k, heffect⟩
  · exact ⟨_, rfl, hraise.kind_not_reserved⟩
  · exact absurd hfault (heffect.not_faulted (step_next h).1)

theorem cfg_eq_of_step {s t : State} (h : step s = .next t) : t.cfg = s.cfg := by
  rcases step_inversion h with ⟨k, info, -, rfl⟩ | ⟨k, heffect⟩
  · rfl
  · exact heffect.frame.cfg

end Sys2Proof.Machine
end

section
/-! The ports (spec/00_scope.md R7, spec/10_state.md R31), reset (R36), and the ends of a run
(spec/70_reset_and_hazards.md R189). -/

namespace Sys2Proof.Machine

/-! The load port and `start`, in IDLE and elsewhere -/

section Ports
variable {s : State}

theorem loadPort_of_idle (h : s.status = .idle) (a v : Byte) : s.loadPort a v = s.store a v := by
  simp [State.loadPort, h]

theorem loadPort_of_not_idle (h : s.status ≠ .idle) (a v : Byte) : s.loadPort a v = s := by
  unfold State.loadPort
  cases hs : s.status with
  | idle => exact absurd hs h
  | running | halted | faulted => rfl

theorem startInput_of_idle (h : s.status = .idle) : s.startInput = { s with status := .running } := by
  simp [State.startInput, h]

theorem startInput_of_not_idle (h : s.status ≠ .idle) : s.startInput = s := by
  unfold State.startInput
  cases hs : s.status with
  | idle => exact absurd hs h
  | running | halted | faulted => rfl

end Ports

/-- Settles O48: the two cases of the load port. -/
theorem loadPortWritesOnlyInIdle : Obligations.LoadPortWritesOnlyInIdle := by
  unfold Obligations.LoadPortWritesOnlyInIdle
  refine fun s a v => ⟨fun hidle n => ?_, fun hne => loadPort_of_not_idle hne a v⟩
  rw [loadPort_of_idle hidle, State.store_mem, Memory.read_write]

/-- Settles O26: `cfg_eq_of_step`, and the two cases of each port. -/
theorem parametersNeverChange : Obligations.ParametersNeverChange := by
  unfold Obligations.ParametersNeverChange
  refine ⟨fun s t h => cfg_eq_of_step h, fun s a v => ?_⟩
  by_cases hidle : s.status = .idle
  · rw [loadPort_of_idle hidle, startInput_of_idle hidle]
    exact ⟨rfl, rfl, rfl⟩
  · rw [loadPort_of_not_idle hidle, startInput_of_not_idle hidle]
    exact ⟨rfl, rfl, rfl⟩

/-- Settles O30: a step needs RUNNING, and the ports act in IDLE only. -/
theorem noStepOutsideRunning : Obligations.NoStepOutsideRunning := by
  unfold Obligations.NoStepOutsideRunning
  refine ⟨fun s t hs => step_ne_next_of_not_running hs t, fun s a v hs => ?_, fun s a v hidle => ?_⟩
  · have hne : s.status ≠ .idle := by rcases hs with hs | hs <;> rw [hs] <;> decide
    exact ⟨startInput_of_not_idle hne, loadPort_of_not_idle hne a v, rfl⟩
  · rw [startInput_of_idle hidle, loadPort_of_idle hidle]
    exact ⟨rfl, rfl, hidle⟩

/-- A step that fetches ends in HALTED exactly if it ran HLT. -/
theorem halted_iff_of_step {s t : State} (h : step s = .next t) (hpc : s.pc.toNat ≤ 253) :
    t.status = .halted ↔ s.cfg.opcodes.mnemonicOf (s.mem.read s.pc.toNat) = some .hlt := by
  obtain ⟨hrun, -⟩ := step_next h
  constructor
  · intro hhalted
    rcases step_inversion h with ⟨k, info, -, rfl⟩ | ⟨k, heffect⟩
    · nomatch hhalted
    · by_cases hk : k = .hlt
      · exact hk ▸ heffect.row
      · rw [heffect.status_of_running hrun, if_neg hk] at hhalted
        nomatch hhalted
  · intro hrow
    rw [step_of_row hrun hpc (OpcodeMap.byteOf_of_mnemonicOf hrow)] at h
    exact Host.Outcome.next.inj h ▸ rfl

/-- Settles O35: `halted_iff_of_step`, the fetch bound of an effect, and the ports outside IDLE. -/
theorem haltedOnlyThroughHlt : Obligations.HaltedOnlyThroughHlt := by
  unfold Obligations.HaltedOnlyThroughHlt
  refine ⟨fun s t h hpc => halted_iff_of_step h hpc, fun s t h hhalted => ?_, fun s a v hs => ?_⟩
  · rcases step_inversion h with ⟨k, info, -, rfl⟩ | ⟨k, heffect⟩
    · nomatch hhalted
    · exact heffect.pc_le
  · have hne : s.status ≠ .idle := by rw [hs]; decide
    refine ⟨step_ne_next_of_not_running (by rw [hs]; decide), startInput_of_not_idle hne,
      loadPort_of_not_idle hne a v, rfl, ?_⟩
    simp [State.executionResult, hs]

/-- Settles O49: the ports read the status and the record that `State.enterFault` writes. -/
theorem faultPortsShowTheRecord : Obligations.FaultPortsShowTheRecord := by
  unfold Obligations.FaultPortsShowTheRecord
  refine ⟨fun s => ?_, fun s k i => ⟨rfl, rfl, rfl, ?_⟩, fun s hnone => ?_⟩
  · unfold State.statusPort
    cases s.status <;> rfl
  · cases k <;> rfl
  · simp [State.faultCodePort, hnone]

/-! Reset -/

/-- The registers of the reset state: SP is 0xF4 and the others 0. -/
theorem reset_reg (r : Reg) : State.reset.x[r] = if r = 7 then 0xF4 else 0 := by
  revert r; decide

/-- Settles O46: each field of `State.reset`, which `State.resetInput` writes but for the parameters. -/
theorem resetLeavesEveryPieceOfState : Obligations.ResetLeavesEveryPieceOfState := by
  unfold Obligations.ResetLeavesEveryPieceOfState
  exact fun s => ⟨fun n => rfl, reset_reg, rfl, rfl, rfl, rfl, rfl, rfl⟩

theorem inv_resetInput (s : State) : s.resetInput.Inv where
  mem_wf := State.reset_mem_wf
  pc_le := Nat.zero_le 256
  fl_legal := .inl rfl
  fault_iff := iff_of_false RunStatus.noConfusion Bool.noConfusion
  fault_legal := fun _ hf => nomatch hf

theorem State.Inv.startInput {s : State} (hs : s.Inv) : s.startInput.Inv := by
  by_cases hidle : s.status = .idle
  · have hnone := hs.fault_eq_none (by rw [hidle]; decide)
    rw [startInput_of_idle hidle]
    exact ⟨hs.mem_wf, hs.pc_le, hs.fl_legal, by simp [hnone], hs.fault_legal⟩
  · rwa [startInput_of_not_idle hidle]

theorem State.Inv.loadPort {s : State} (hs : s.Inv) (a v : Byte) : (s.loadPort a v).Inv := by
  by_cases hidle : s.status = .idle
  · rw [loadPort_of_idle hidle]
    exact ⟨State.store_wf hs.mem_wf a v, hs.pc_le, hs.fl_legal, hs.fault_iff, hs.fault_legal⟩
  · rwa [loadPort_of_not_idle hidle]

/-- Settles O44: reset's fields meet the invariant, and each port keeps it in both of its cases. -/
theorem resetAndPortsKeepInvariant : Obligations.ResetAndPortsKeepInvariant := by
  unfold Obligations.ResetAndPortsKeepInvariant
  exact ⟨inv_resetInput State.reset, fun s a v hs => ⟨inv_resetInput s, hs.startInput, hs.loadPort a v⟩⟩

/-! The ends of a run -/

theorem runFor_of_next {s t : State} (h : step s = .next t) (k : Nat) :
    runFor (k + 1) s = runFor k t := by
  simp [runFor, h]

/-- Outside RUNNING a run goes nowhere. -/
theorem runFor_of_not_running {s : State} (hs : s.status ≠ .running) (k : Nat) : runFor k s = s := by
  cases k with
  | zero => rfl
  | succ k =>
    rw [runFor]
    cases h : step s with
    | next t => exact absurd h (step_ne_next_of_not_running hs t)
    | fault | refused => rfl

theorem runFor_add (k j : Nat) (s : State) : runFor (k + j) s = runFor j (runFor k s) := by
  induction k generalizing s with
  | zero => rw [Nat.zero_add]; rfl
  | succ k ih =>
    by_cases hrun : s.status = .running
    · obtain ⟨t, ht⟩ := step_exists_next hrun
      rw [runFor_of_next ht, Nat.add_right_comm, runFor_of_next ht, ih]
    · rw [runFor_of_not_running hrun, runFor_of_not_running hrun, runFor_of_not_running hrun]

theorem status_ne_idle_of_step {s t : State} (h : step s = .next t) : t.status ≠ .idle := by
  rcases step_inversion h with ⟨k, info, -, rfl⟩ | ⟨k, heffect⟩
  · exact RunStatus.noConfusion
  · rw [heffect.status_of_running (step_next h).1]
    split <;> decide

/-- What holds of a started state that meets the invariant holds all along its run. -/
theorem inv_runFor {s : State} (hs : s.Inv) (hstart : s.status ≠ .idle) (k : Nat) :
    (runFor k s).Inv ∧ (runFor k s).status ≠ .idle := by
  induction k generalizing s with
  | zero => exact ⟨hs, hstart⟩
  | succ k ih =>
    by_cases hrun : s.status = .running
    · obtain ⟨t, ht⟩ := step_exists_next hrun
      rw [runFor_of_next ht]
      exact ih (hs.step ht) (status_ne_idle_of_step ht)
    · rw [runFor_of_not_running hrun]
      exact ⟨hs, hstart⟩

/-- Settles O45: the status that the run has reached names its end, the invariant there says whether it has
a record, and from HALTED or FAULTED no step leads on. -/
theorem runEndsInExactlyOneWay : Obligations.RunEndsInExactlyOneWay := by
  unfold Obligations.RunEndsInExactlyOneWay
  intro s k hs hstart
  obtain ⟨hinv, hidle⟩ := inv_runFor hs hstart k
  constructor
  · cases hstatus : (runFor k s).status with
    | idle => exact absurd hstatus hidle
    | running => exact .inr (.inr ⟨by simp [runEnd, hstatus], rfl⟩)
    | halted => exact .inl ⟨by simp [runEnd, hstatus], rfl, hinv.fault_eq_none (by rw [hstatus]; decide)⟩
    | faulted =>
      obtain ⟨f, hf⟩ := Option.isSome_iff_exists.mp (hinv.fault_iff.mp hstatus)
      exact .inr (.inl ⟨f, by simp [runEnd, hstatus, hf], rfl, hf⟩)
  · intro hend j
    rw [runFor_add]
    refine runFor_of_not_running (fun hrun => hend ?_) j
    simp [runEnd, hrun]

end Sys2Proof.Machine
end

section
/-! The rule of each instruction on registers that exist (spec/41_register_io.md to
spec/44_control_flow.md), and the check of register operands that comes before it (spec/40_dispatch.md
R83). -/

namespace Sys2Proof.Machine

/-- The sequential advance of a row writes only pc. -/
theorem State.advance_eq_setPc (s : State) (k : Mnemonic) :
    s.advance k = s.setPc (s.pc + BitVec.ofNat 9 (k.operandCount + 1)) := by
  rw [State.advance, OpcodeMap.instrLength_byteOf]

/-! The check of register operands -/

/-- The first register operand above 7 is reported, whatever the rest of the state. NOT is the exception:
it may read its second operand byte before. -/
theorem exec_of_first_operand_ge {i : Instr} {s : State} {a : Byte} {rest : List Byte}
    (hi : i.registerOperands = a :: rest) (ha : 8 ≤ a.toNat) (hnot : ∀ b, i ≠ .not b) :
    exec i s = .next (s.enterFault .outOfBoundsRegister (zext9 a)) := by
  cases i <;> cases hi
  case not => exact absurd rfl (hnot a)
  all_goals
    simp only [exec, execPush, execPop, execPrn, execCall, execJmp, execJeq, execJne, execLdi, execAdd,
      execMul, execCmp, execAnd, execOr, execXor, aluBinary, withRegs, withReg_of_ge ha]
    rfl

/-- The second register operand above 7 is reported once the first has passed. -/
theorem exec_of_second_operand_ge {i : Instr} {s : State} {a b : Byte}
    (hi : i.registerOperands = [a, b]) (ha : a.toNat < 8) (hb : 8 ≤ b.toNat) :
    exec i s = .next (s.enterFault .outOfBoundsRegister (zext9 b)) := by
  cases i <;> cases hi
  all_goals
    simp only [exec, execAdd, execMul, execCmp, execAnd, execOr, execXor, aluBinary, withRegs,
      withReg_of_lt ha, withReg_of_ge hb]
    rfl

theorem checksOneRegister {mk : Byte → Instr} (hops : ∀ a, (mk a).registerOperands = [a])
    (hnot : ∀ a b, mk a ≠ .not b) : ChecksOneRegister mk :=
  fun _ a ha => exec_of_first_operand_ge (hops a) ha (hnot a)

theorem checksTwoRegisters {mk : Byte → Byte → Instr}
    (hops : ∀ a b, (mk a b).registerOperands = [a, b]) : ChecksTwoRegisters mk := by
  intro s a b
  have hnot (c : Byte) : mk a b ≠ .not c := fun hc => by
    have hone := hops a b
    rw [hc] at hone
    nomatch hone
  exact ⟨fun ha => exec_of_first_operand_ge (hops a b) ha hnot, exec_of_second_operand_ge (hops a b)⟩

/-- NOT under REFERENCE_INEQUALITY is a two-register instruction whose second operand byte is at pc+2. -/
theorem exec_not_of_reference {s : State} (hcfg : s.cfg.notSemantics = .referenceInequality)
    (hpc : s.pc.toNat ≤ 253) (a : Byte) :
    exec (.not a) s = aluBinary .not aluDiffers a (s.mem.read (s.pc.toNat + 2)) s := by
  simp only [exec, execNot, hcfg]
  rw [withByte_of_le (by omega)]

theorem exec_not_of_onesComplement {s : State} (hcfg : s.cfg.notSemantics = .onesComplement) (a : Byte) :
    exec (.not a) s = withReg a s fun r => .next ((s.setReg r (~~~ s.reg r)).advance .not) := by
  simp only [exec, execNot, hcfg]

/-- NOT checks its operand under either meaning, where a step can run it. -/
theorem exec_not_of_ge {s : State} (hpc : s.pc.toNat ≤ 253) {a : Byte} (ha : 8 ≤ a.toNat) :
    exec (.not a) s = .next (s.enterFault .outOfBoundsRegister (zext9 a)) := by
  cases hcfg : s.cfg.notSemantics with
  | referenceInequality =>
    rw [exec_not_of_reference hcfg hpc, aluBinary, withRegs, withReg_of_ge ha]
    rfl
  | onesComplement =>
    rw [exec_not_of_onesComplement hcfg, withReg_of_ge ha]
    rfl

/-- Settles O31: the step is its instruction's meaning, which begins with the checks. -/
theorem registerChecksComeFirst : Obligations.RegisterChecksComeFirst := by
  unfold Obligations.RegisterChecksComeFirst
  intro s i hrun hpc hi
  rw [step_of_decode_ok hrun hpc hi]
  refine ⟨fun a rest hops ha => ?_, fun a b hops ha hb => exec_of_second_operand_ge hops ha hb⟩
  by_cases hnot : ∃ b, i = .not b
  · obtain ⟨b, rfl⟩ := hnot
    obtain ⟨rfl, -⟩ := List.cons.inj hops
    exact exec_not_of_ge hpc ha
  · exact exec_of_first_operand_ge hops ha (not_exists.mp hnot)

/-! LDI, PRN and HLT -/

/-- Settles O1: the register written is the one that the operand names, and the advance is 3. -/
theorem ldiLoadsImmediate : Obligations.LdiLoadsImmediate := by
  unfold Obligations.LdiLoadsImmediate
  refine ⟨fun s r v => ?_, fun v => checksOneRegister (fun _ => rfl) nofun, fun a v => rfl⟩
  simp only [exec, execLdi, withReg_ofNat, State.advance_eq_setPc]
  rfl

/-- Settles O2: the trace grows by the one byte at its old length, and the advance is 2. -/
theorem prnEmitsRegister : Obligations.PrnEmitsRegister := by
  unfold Obligations.PrnEmitsRegister
  refine ⟨fun s r => ⟨?_, by simp [outEvent]⟩, checksOneRegister (fun _ => rfl) nofun, fun a => rfl⟩
  simp only [exec, execPrn, withReg_ofNat, State.advance_eq_setPc]
  rfl

/-- Settles O3: the advance of HLT is 1. -/
theorem hltHalts : Obligations.HltHalts := by
  unfold Obligations.HltHalts
  intro s
  rw [exec, execHlt, State.advance_eq_setPc]
  rfl

/-! The ALU -/

theorem aluBinary_regByte (k : Mnemonic) (f : Byte → Byte → Byte) (s : State) (a b : Reg) :
    aluBinary k f (regByte a) (regByte b) s =
      .next ((s.setReg a (f (s.reg a) (s.reg b))).setPc
        (s.pc + BitVec.ofNat 9 (k.operandCount + 1))) := by
  rw [aluBinary, withRegs, withReg_ofNat, withReg_ofNat, State.advance_eq_setPc]
  rfl

theorem ofNat_mod_256 (n : Nat) : BitVec.ofNat 8 (n % 256) = BitVec.ofNat 8 n := by
  apply BitVec.eq_of_toNat_eq
  simp

/-- Settles O4: `aluBinary_regByte`, where the sum is cut to 8 bits. -/
theorem addWrapsModulo256 : Obligations.AddWrapsModulo256 := by
  unfold Obligations.AddWrapsModulo256
  refine ⟨fun s a b => ?_, checksTwoRegisters fun _ _ => rfl⟩
  rw [ofNat_mod_256]
  exact aluBinary_regByte .add aluAdd s a b

/-- Settles O5: `aluBinary_regByte`, where the product is cut to 8 bits. -/
theorem mulWrapsModulo256 : Obligations.MulWrapsModulo256 := by
  unfold Obligations.MulWrapsModulo256
  refine ⟨fun s a b => ?_, checksTwoRegisters fun _ _ => rfl⟩
  rw [ofNat_mod_256]
  exact aluBinary_regByte .mul aluMul s a b

/-- Settles O6: `aluBinary_regByte` for the three bitwise functions. -/
theorem andOrXorAreBitwise : Obligations.AndOrXorAreBitwise := by
  unfold Obligations.AndOrXorAreBitwise
  refine ⟨fun s a b => ⟨?_, ?_, ?_⟩, checksTwoRegisters fun _ _ => rfl,
    checksTwoRegisters fun _ _ => rfl, checksTwoRegisters fun _ _ => rfl, fun a b => ⟨rfl, rfl, rfl⟩⟩
  · exact aluBinary_regByte .and (· &&& ·) s a b
  · exact aluBinary_regByte .or (· ||| ·) s a b
  · exact aluBinary_regByte .xor (· ^^^ ·) s a b

/-- Settles O7: a two-register instruction on the operand and the byte at pc+2. -/
theorem notReferenceComparesRegisters : Obligations.NotReferenceComparesRegisters := by
  unfold Obligations.NotReferenceComparesRegisters
  refine fun s hcfg hpc => ⟨fun r q hq => ?_, fun a ha => exec_not_of_ge hpc ha, fun r hb => ?_⟩
  · rw [exec_not_of_reference hcfg hpc, hq]
    exact aluBinary_regByte .not aluDiffers s r q
  · rw [exec_not_of_reference hcfg hpc, aluBinary, withRegs, withReg_ofNat, withReg_of_ge hb]
    rfl

theorem not_eq_ofNat_sub (v : Byte) : ~~~ v = BitVec.ofNat 8 (255 - v.toNat) := by
  apply BitVec.eq_of_toNat_eq
  rw [BitVec.toNat_not, BitVec.toNat_ofNat]
  omega

/-- Settles O8: the complement of a byte is 255 minus it. -/
theorem notOnesComplementInverts : Obligations.NotOnesComplementInverts := by
  unfold Obligations.NotOnesComplementInverts
  refine fun s hcfg => ⟨fun r => ?_, fun a ha => ?_⟩
  · rw [exec_not_of_onesComplement hcfg, withReg_ofNat, State.advance_eq_setPc, not_eq_ofNat_sub]
    rfl
  · rw [exec_not_of_onesComplement hcfg, withReg_of_ge ha]
    rfl

/-- Settles O9: CMP's rule, whose comparison of values is one of bytes. -/
theorem cmpSetsExactlyOneFlag : Obligations.CmpSetsExactlyOneFlag := by
  unfold Obligations.CmpSetsExactlyOneFlag
  refine ⟨fun s a b => ?_, checksTwoRegisters fun _ _ => rfl, fun a b => rfl⟩
  rw [exec_cmp_regByte, State.advance_eq_setPc, compareFlags]
  simp only [BitVec.toNat_inj]
  rfl

/-! Jumps and branches -/

theorem exec_jmp_regByte (s : State) (r : Reg) :
    exec (.jmp (regByte r)) s = .next (s.setPc (zext9 (s.reg r))) := by
  simp only [exec, execJmp, withReg_ofNat, jumpTo]

/-- Settles O15: JMP's rule; a target equal to pc leaves the state as it was. -/
theorem jmpGoesToRegister : Obligations.JmpGoesToRegister := by
  unfold Obligations.JmpGoesToRegister
  refine ⟨exec_jmp_regByte, fun s r hself => ?_, checksOneRegister (fun _ => rfl) nofun, fun a => rfl⟩
  rw [exec_jmp_regByte, show zext9 (s.reg r) = s.pc from hself]
  rfl

/-- Settles O16: JEQ's rule. -/
theorem jeqJumpsIffEqual : Obligations.JeqJumpsIffEqual := by
  unfold Obligations.JeqJumpsIffEqual
  exact ⟨exec_jeq_regByte, checksOneRegister (fun _ => rfl) nofun⟩

/-- Settles O17: JNE's rule, with the branches the other way round. -/
theorem jneJumpsIffNotEqual : Obligations.JneJumpsIffNotEqual := by
  unfold Obligations.JneJumpsIffNotEqual
  refine ⟨fun s r => ?_, checksOneRegister (fun _ => rfl) nofun⟩
  simp only [ne_eq, ite_not]
  exact exec_jne_regByte s r

theorem compareFlags_eq_flagEqual_iff {u v : Byte} : compareFlags u v = flagEqual ↔ u = v := by
  rw [← BitVec.toNat_inj (x := u)]
  rcases compareFlags_cases u v with ⟨heq, h⟩ | ⟨hgt, h⟩ | ⟨hlt, h⟩
  · exact iff_of_true h heq
  · exact iff_of_false (by rw [h]; decide) hgt.ne'
  · exact iff_of_false (by rw [h]; decide) hlt.ne

/-- Settles O18: after CMP, FL is EQUAL exactly for equal registers, and the branch that is not taken ends
2 bytes behind CMP's 3. -/
theorem compareThenBranchDecides : Obligations.CompareThenBranchDecides := by
  unfold Obligations.CompareThenBranchDecides
  intro s p q r
  refine ⟨_, _, _, exec_cmp_regByte s p q, exec_jeq_regByte _ r, exec_jne_regByte _ r, ?_⟩
  have hnext : ((s.setFl (compareFlags (s.reg p) (s.reg q))).advance .cmp).nextPc = s.pc + 5 := by
    rw [State.nextPc, State.advance_pc_length]
    exact BitVec.add_assoc s.pc 3 2
  constructor
  · intro heq
    have hfl := compareFlags_eq_flagEqual_iff.mpr (show s.reg p = s.reg q from heq)
    exact ⟨if_pos hfl, (if_pos hfl).trans hnext⟩
  · intro hne
    have hfl := compareFlags_eq_flagEqual_iff.not.mpr (show s.reg p ≠ s.reg q from hne)
    exact ⟨(if_neg hfl).trans hnext, if_neg hfl⟩

end Sys2Proof.Machine
end

section
/-! The stack instructions (spec/43_stack.md; spec/44_control_flow.md CALL, RET): the rule of each, and the
laws of PUSH/POP (R133) and CALL/RET (R146). -/

namespace Sys2Proof.Machine

/-- The state after PUSH of a register (R131). -/
def State.pushed (s : State) (r : Reg) : State :=
  (s.decSp.store s.pushAddr (s.decSp.reg r)).advance .push

/-- The state after CALL of a register (R141). -/
def State.called (s : State) (r : Reg) : State :=
  (s.decSp.store s.pushAddr (s.nextPc.setWidth 8)).setPc (zext9 (s.decSp.reg r))

/-! The rules -/

section Rules
variable {s : State}

theorem exec_push_of_room (hsp : s.sp ≠ 0) (r : Reg) :
    exec (.push (regByte r)) s = .next (s.pushed r) := by
  simp only [exec, execPush, withReg_ofNat, withPushRoom_of_ne hsp, State.pushed]

theorem exec_push_of_full (hsp : s.sp = 0) (r : Reg) :
    exec (.push (regByte r)) s = .next (s.enterFault .stackOverflow 0) := by
  simp only [exec, execPush, withReg_ofNat, withPushRoom_of_eq hsp]
  rfl

theorem exec_pop_of_byte (hsp : s.sp ≠ 255) {r : Reg} (hr : r = spReg → s.load s.sp ≠ 255) :
    exec (.pop (regByte r)) s = .next ((s.setReg r (s.load s.sp)).incSp.advance .pop) := by
  simp only [exec, execPop, withReg_ofNat, withPopped_of_ne hsp]
  exact if_neg fun h => hr h.1 h.2

theorem exec_pop_of_empty (hsp : s.sp = 255) (r : Reg) :
    exec (.pop (regByte r)) s = .next (s.enterFault .stackUnderflow 255) := by
  simp only [exec, execPop, withReg_ofNat, withPopped_of_eq hsp]
  rfl

/-- POP R7 of the byte 255 would take SP to 256. -/
theorem exec_pop_sp_of_255 (hsp : s.sp ≠ 255) (hv : s.load s.sp = 255) :
    exec (.pop (regByte spReg)) s = .next (s.enterFault .stackUnderflow (zext9 s.sp)) := by
  simp only [exec, execPop, withReg_ofNat, withPopped_of_ne hsp]
  rw [hv]
  rfl

theorem exec_call_of_room (hsp : s.sp ≠ 0) (r : Reg) :
    exec (.call (regByte r)) s = .next (s.called r) := by
  simp only [exec, execCall, withReg_ofNat, withPushRoom_of_ne hsp]
  rfl

theorem exec_call_of_full (hsp : s.sp = 0) (r : Reg) :
    exec (.call (regByte r)) s = .next (s.enterFault .stackOverflow 0) := by
  simp only [exec, execCall, withReg_ofNat, withPushRoom_of_eq hsp]
  rfl

theorem exec_ret_of_byte (hsp : s.sp ≠ 255) :
    exec .ret s = .next ((s.setPc (zext9 (s.load s.sp))).incSp) := by
  simp only [exec, execRet, withPopped_of_ne hsp]

theorem exec_ret_of_empty (hsp : s.sp = 255) :
    exec .ret s = .next (s.enterFault .stackUnderflow 255) := by
  simp only [exec, execRet, withPopped_of_eq hsp]
  rfl

end Rules

/-- Reading a register after SP was decremented. -/
theorem decSp_reg (s : State) (r : Reg) : s.decSp.reg r = if r = 7 then s.sp - 1 else s.reg r :=
  s.reg_setReg spReg r (s.sp - 1)

/-- SP after a pop-style write and increment: POP R7 increments the popped byte. -/
theorem setReg_sp_add_one (s : State) (r : Reg) (v : Byte) :
    (s.setReg r v).sp + 1 = if r = 7 then v + 1 else s.sp + 1 := by
  by_cases hr : r = 7
  · subst hr
    exact congrArg (· + 1) (s.reg_setReg_self 7 v)
  · rw [if_neg hr, State.sp, s.reg_setReg_of_ne (show spReg ≠ r from Ne.symm hr), State.sp]

theorem zext9_toNat (b : Byte) : (zext9 b).toNat = b.toNat :=
  BitVec.toNat_setWidth_of_le (by decide)

/-- Where a step runs an instruction, pc + 2 does not wrap. -/
theorem nextPc_toNat {s : State} (hpc : s.pc.toNat ≤ 253) : s.nextPc.toNat = s.pc.toNat + 2 := by
  rw [State.nextPc, BitVec.toNat_add]
  exact Nat.mod_eq_of_lt (by simp only [BitVec.reduceToNat]; omega)

/-- The return address fits in a byte: its 8 bits are those of its value. -/
theorem nextPc_byte {s : State} (hpc : s.pc.toNat ≤ 253) :
    s.nextPc.setWidth 8 = BitVec.ofNat 8 (s.pc.toNat + 2) := by
  apply BitVec.eq_of_toNat_eq
  rw [BitVec.toNat_setWidth, nextPc_toNat hpc, BitVec.toNat_ofNat]

/-- The return address is read back from its byte. -/
theorem zext9_nextPc_byte {s : State} (hpc : s.pc.toNat ≤ 253) :
    zext9 (s.nextPc.setWidth 8) = s.nextPc := by
  apply BitVec.eq_of_toNat_eq
  rw [zext9_toNat, BitVec.toNat_setWidth, nextPc_toNat hpc]
  omega

section AfterPush
variable (s : State) (r : Reg)

theorem pushed_sp : (s.pushed r).sp = s.sp - 1 := s.sp_decSp
theorem called_sp : (s.called r).sp = s.sp - 1 := s.sp_decSp

theorem pushed_mem_read (n : Nat) :
    (s.pushed r).mem.read n = if n = (s.sp - 1).toNat then s.decSp.reg r else s.mem.read n := by
  rw [← State.pushAddr_eq]
  exact Memory.read_write _ _ _ _

theorem called_mem_read (n : Nat) :
    (s.called r).mem.read n =
      if n = (s.sp - 1).toNat then s.nextPc.setWidth 8 else s.mem.read n := by
  rw [← State.pushAddr_eq]
  exact Memory.read_write _ _ _ _

/-- The byte on top of the stack after PUSH. -/
theorem pushed_load_sp : (s.pushed r).load (s.pushed r).sp = s.decSp.reg r := by
  rw [State.load, pushed_sp, pushed_mem_read, if_pos rfl]

/-- The byte on top of the stack after CALL. -/
theorem called_load_sp : (s.called r).load (s.called r).sp = s.nextPc.setWidth 8 := by
  rw [State.load, called_sp, called_mem_read, if_pos rfl]

end AfterPush

/-- Settles O10: PUSH's rule, read field by field. -/
theorem pushStoresBelowStackPointer : Obligations.PushStoresBelowStackPointer := by
  unfold Obligations.PushStoresBelowStackPointer
  refine ⟨fun s r hsp => ?_, fun s r hsp => exec_push_of_full hsp r,
    checksOneRegister (fun _ => rfl) nofun, fun a => rfl⟩
  refine ⟨_, exec_push_of_room hsp r, rfl, State.advance_pc_length _ _, fun n => ?_, rfl, rfl, rfl, rfl, rfl⟩
  rw [pushed_mem_read, decSp_reg]
  rfl

/-- Settles O11: POP's rule. After POP R7 the SP that is incremented is the popped byte. -/
theorem popLoadsThenIncrements : Obligations.PopLoadsThenIncrements := by
  unfold Obligations.PopLoadsThenIncrements
  refine ⟨fun s r hsp hr => ?_, fun s r hsp => exec_pop_of_empty hsp r,
    fun s hsp hv => exec_pop_sp_of_255 hsp hv, checksOneRegister (fun _ => rfl) nofun⟩
  rw [exec_pop_of_byte hsp hr, State.advance_eq_setPc, State.incSp, setReg_sp_add_one]
  rfl

/-- Settles O13: CALL's rule, read field by field; 8 bits of pc + 2 are those of its value. -/
theorem callPushesReturnAddress : Obligations.CallPushesReturnAddress := by
  unfold Obligations.CallPushesReturnAddress
  refine ⟨fun s r hsp hpc => ?_, fun s r hsp => exec_call_of_full hsp r,
    checksOneRegister (fun _ => rfl) nofun⟩
  refine ⟨_, exec_call_of_room hsp r, rfl, congrArg zext9 (decSp_reg s r), fun n => ?_, rfl, rfl,
    rfl, rfl, rfl⟩
  rw [called_mem_read, nextPc_byte hpc]
  rfl

/-- Settles O14: RET's rule; a popped 254 or 255 is a pc whose fetch fails. -/
theorem retPopsIntoPc : Obligations.RetPopsIntoPc := by
  unfold Obligations.RetPopsIntoPc
  refine ⟨fun s hsp => exec_ret_of_byte hsp, fun s hsp => exec_ret_of_empty hsp,
    fun s t hrun hsp hge h => ?_, rfl⟩
  rw [exec_ret_of_byte hsp] at h
  obtain rfl := Host.Outcome.next.inj h
  have hpc := zext9_toNat (s.load s.sp)
  exact step_of_fetch_at_end hrun (hpc ▸ hge) (hpc ▸ by omega)

/-! The laws -/

/-- Decrementing SP from a value that is not 0 does not reach 255. -/
theorem sub_one_ne_255 {b : Byte} (h : b ≠ 0) : b - 1 ≠ 255 := by
  bv_omega

theorem x_eq_of_reg {s t : State} (h : ∀ r, s.reg r = t.reg r) : s.x = t.x :=
  Vector.ext fun n hn => h ⟨n, hn⟩

/-- A register after POP's two writes. -/
theorem setReg_incSp_reg (s : State) (r q : Reg) (v : Byte) :
    (s.setReg r v).incSp.reg q =
      if q = 7 then (if r = 7 then v + 1 else s.sp + 1) else if q = r then v else s.reg q := by
  rw [State.incSp, State.reg_setReg, setReg_sp_add_one, State.reg_setReg]
  rfl

/-- Where PUSH left its byte, POP writes back every register: for R7 the byte is the address itself, and its
increment is the old SP. -/
theorem setReg_incSp_reg_pushed (s : State) (r q : Reg) :
    ((s.pushed r).setReg r (s.decSp.reg r)).incSp.reg q = s.reg q := by
  rw [setReg_incSp_reg, pushed_sp, decSp_reg, BitVec.sub_add_cancel]
  by_cases hq : q = 7
  · subst hq
    rw [if_pos rfl]
    split
    · exact BitVec.sub_add_cancel s.sp 1
    · rfl
  · have hframe : (s.pushed r).reg q = s.reg q := (decSp_reg s q).trans (if_neg hq)
    rw [if_neg hq, hframe]
    by_cases hqr : q = r
    · subst hqr
      rw [if_pos rfl, if_neg hq]
    · rw [if_neg hqr]

/-- Settles O12: POP finds at its SP the byte that PUSH stored, and `setReg_incSp_reg_pushed`. -/
theorem pushThenPopRestoresRegisters : Obligations.PushThenPopRestoresRegisters := by
  unfold Obligations.PushThenPopRestoresRegisters
  intro s r hsp
  have hload := pushed_load_sp s r
  have hne : s.sp - 1 ≠ 255 := sub_one_ne_255 hsp
  have hbyte : r = spReg → (s.pushed r).load (s.pushed r).sp ≠ 255 := by
    rintro rfl
    rwa [hload, decSp_reg, if_pos (show spReg = 7 from rfl)]
  have hpop := exec_pop_of_byte (pushed_sp s r ▸ hne) hbyte
  rw [hload] at hpop
  refine ⟨_, _, exec_push_of_room hsp r, hpop, x_eq_of_reg (setReg_incSp_reg_pushed s r), ?_, rfl, rfl, rfl,
    fun n hn => (pushed_mem_read s r n).trans (if_neg hn)⟩
  rw [State.advance_pc_length]
  exact (congrArg (· + 2) (State.advance_pc_length _ .push)).trans (BitVec.add_assoc s.pc 2 2)

/-- Settles O19: RET finds the return byte at the SP that CALL left, and it is pc + 2 whole, as CALL ran at a
pc of at most 253. -/
theorem returnResumesAfterCall : Obligations.ReturnResumesAfterCall := by
  unfold Obligations.ReturnResumesAfterCall
  intro s r hroom hpc
  refine ⟨_, exec_call_of_room hroom r, fun u hu hcell => ?_⟩
  have hsp : u.sp = (s.called r).sp := hu
  have hload : u.load u.sp = s.nextPc.setWidth 8 := by
    rw [← called_load_sp s r, State.load, hsp]
    exact hcell
  have hret := exec_ret_of_byte (s := u) (by rw [hsp, called_sp]; exact sub_one_ne_255 hroom)
  rw [hload, zext9_nextPc_byte hpc] at hret
  refine ⟨_, hret, rfl, u.sp_incSp.trans ?_, rfl⟩
  rw [hsp, called_sp, BitVec.sub_add_cancel]
  rfl

end Sys2Proof.Machine
end

section
/-! Two consequences of reading the bytes of a step from memory as it is (spec/20_memory.md R51,
spec/42_alu.md R116): a pushed byte is executed, and the operand byte of a two-register NOT is the next
opcode. -/

namespace Sys2Proof.Machine

/-! Executing the pushed byte -/

theorem sub_one_toNat {b : Byte} (h : b ≠ 0) : (b - 1).toNat + 1 = b.toNat := by
  bv_omega

/-- The state after PUSH of a register, with pc at the pushed byte. -/
def State.atPushed (s : State) (r : Reg) : State := (s.pushed r).setPc (zext9 (s.sp - 1))

theorem atPushed_pc_toNat (s : State) (r : Reg) : (s.atPushed r).pc.toNat = (s.sp - 1).toNat :=
  zext9_toNat (s.sp - 1)

/-- A fetch there reads the pushed byte and, behind it, what stood there before the PUSH. -/
theorem atPushed_fetch {s : State} {r : Reg} (hsp : s.sp ≠ 0) (hr : r ≠ 7) :
    (s.atPushed r).mem.read (s.atPushed r).pc.toNat = s.reg r ∧
      (s.atPushed r).mem.read ((s.atPushed r).pc.toNat + 1) = s.mem.read s.sp.toNat ∧
      (s.atPushed r).mem.read ((s.atPushed r).pc.toNat + 2) = s.mem.read (s.sp.toNat + 1) := by
  have hmem : (s.atPushed r).mem = (s.pushed r).mem := rfl
  simp only [atPushed_pc_toNat, hmem, pushed_mem_read]
  refine ⟨?_, ?_, ?_⟩
  · rw [if_pos trivial, decSp_reg, if_neg hr]
  · rw [if_neg (by omega), sub_one_toNat hsp]
  · rw [if_neg (by omega), ← sub_one_toNat hsp]

/-- Settles O36: the step at the pushed byte fetches that byte, so `step_of_row` or `step_of_no_row` is
about it. -/
theorem pushedByteIsFetched : Obligations.PushedByteIsFetched := by
  unfold Obligations.PushedByteIsFetched
  intro s r hrun hsp hle hr
  obtain ⟨hop, ha, hb⟩ := atPushed_fetch hsp hr
  have hpc : (s.atPushed r).pc.toNat ≤ 253 := (atPushed_pc_toNat s r).trans_le hle
  refine ⟨_, exec_push_of_room hsp r, fun k hk => ?_, fun hno => ?_⟩
  · have hstep := step_of_row (s := s.atPushed r) hrun hpc (hk.trans hop.symm)
    rw [ha, hb] at hstep
    exact hstep
  · have hstep := step_of_no_row (s := s.atPushed r) hrun hpc fun k hk => hno k (hk.trans hop)
    rw [hop] at hstep
    exact hstep

/-! NOT under the defaults -/

/-- Under the default map a byte below 8 is HLT or no opcode, so the step at it ends the run. -/
theorem step_ends_of_byte_lt_8 {s : State} (hcfg : s.cfg.opcodes = OpcodeMap.ls8)
    (hrun : s.status = .running) (hbyte : (s.mem.read s.pc.toNat).toNat < 8) :
    ∃ u, step s = .next u ∧ u.status ≠ .running := by
  by_cases hpc : s.pc.toNat ≤ 253
  · by_cases hrow : ∃ k, s.cfg.opcodes.byteOf k = s.mem.read s.pc.toNat
    · obtain ⟨k, hk⟩ := hrow
      have hhlt : k = .hlt := by
        rw [← hk, hcfg] at hbyte
        cases k with
        | hlt => rfl
        | _ => exact absurd hbyte (by decide)
      subst hhlt
      exact ⟨_, step_of_row hrun hpc hk, RunStatus.noConfusion⟩
    · exact ⟨_, step_of_no_row hrun hpc (not_exists.mp hrow), RunStatus.noConfusion⟩
  · exact ⟨_, step_of_fetch_past hrun (by omega), RunStatus.noConfusion⟩

/-- Settles O38: a NOT that does not fault goes on at the byte it took its second register from, which is
below 8. -/
theorem notUnderDefaultsEndsTheRun : Obligations.NotUnderDefaultsEndsTheRun := by
  unfold Obligations.NotUnderDefaultsEndsTheRun
  intro s t hcfg hop h
  rcases step_inversion h with ⟨k, info, -, rfl⟩ | ⟨k, heffect⟩
  · exact .inl rfl
  right
  have hk : k = .not := by
    have hrow := heffect.row
    rw [hop, hcfg] at hrow
    exact (Option.some.inj hrow).symm
  subst hk
  obtain ⟨r, v, -, rfl, hv⟩ := heffect.effect
  rw [hcfg] at hv
  obtain ⟨q, hpc, hq, -⟩ := hv
  have hnext : ((s.setReg r v).advance .not).pc.toNat = s.pc.toNat + 2 := by
    rw [State.advance_pc_length]
    exact nextPc_toNat hpc
  refine step_ends_of_byte_lt_8 (s := (s.setReg r v).advance .not) (congrArg Config.opcodes hcfg)
    (step_next h).1 ?_
  rw [hnext, State.advance_mem, State.setReg_mem, hq]
  simp only [BitVec.toNat_ofNat]
  omega

end Sys2Proof.Machine
end

section
/-! A fetched byte that the instruction does not use (spec/40_dispatch.md R81): executing an instruction
before and after another value was put in a memory cell, where the instruction neither pops from that cell
nor pushes to it. -/

namespace Sys2Proof

/-- A row with no operand takes neither of the bytes behind it. -/
theorem assemble_of_no_operand {k : Mnemonic} (hk : k.operandCount = 0) (a b a' b' : Byte) :
    assemble k a b = assemble k a' b' := by
  cases k with
  | hlt | ret => rfl
  | _ => nomatch hk

/-- A row with fewer than two operands does not take the second byte. -/
theorem assemble_of_one_operand {k : Mnemonic} (hk : k.operandCount < 2) (a b b' : Byte) :
    assemble k a b = assemble k a b' := by
  cases k with
  | ldi | add | mul | cmp | and | or | xor => exact absurd hk (by decide)
  | _ => rfl

end Sys2Proof

namespace Sys2Proof.Machine

/-- The state with another value in one memory cell. -/
def State.setCell (s : State) (n : Nat) (v : Byte) : State := { s with mem := s.mem.write n v }

theorem setCell_mem_read (s : State) (n m : Nat) (v : Byte) :
    (s.setCell n v).mem.read m = if m = n then v else s.mem.read m :=
  Memory.read_write _ _ _ _

/-- Cell `n` is not the stack cell of row `k`, and the row is none that reads a second operand byte. -/
def CellUnused (k : Mnemonic) (s : State) (n : Nat) : Prop :=
  match k with
  | .push | .call => s.sp ≠ 0 → n ≠ s.pushAddr.toNat
  | .pop | .ret => s.sp ≠ 255 → n ≠ s.sp.toNat
  | .not => s.cfg.notSemantics = .onesComplement
  | .hlt | .prn | .jmp | .jeq | .jne | .ldi | .add | .mul | .cmp | .and | .or | .xor => True

/-- Both answers are next states, alike but for cell `n`, which holds `v` in the second. -/
def SameButCell (n : Nat) (v : Byte) (p q : Result) : Prop :=
  ∃ t u, p = .next t ∧ q = .next u ∧ { u with mem := t.mem } = t ∧
    ∀ m, u.mem.read m = if m = n then v else t.mem.read m

section
variable {s : State} {n : Nat} {v : Byte}

/-- Next states that differ as the states before them do. -/
theorem sameButCell_next {t u : State} (hmem : ∀ m, u.mem.read m = if m = n then v else t.mem.read m)
    (hrest : { u with mem := t.mem } = t := by rfl) : SameButCell n v (.next t) (.next u) :=
  ⟨t, u, rfl, rfl, hrest, hmem⟩

theorem sameButCell_raise (k : FaultKind) (info : PcWord) :
    SameButCell n v (raise k info s) (raise k info (s.setCell n v)) :=
  sameButCell_next (setCell_mem_read s n · v)

theorem sameButCell_withReg (b : Byte) {k l : Reg → Result} (h : ∀ r, SameButCell n v (k r) (l r)) :
    SameButCell n v (withReg b s k) (withReg b (s.setCell n v) l) := by
  by_cases hb : b.toNat < 8
  · rw [withReg_of_lt hb, withReg_of_lt hb]
    exact h _
  · rw [withReg_of_ge (Nat.not_lt.mp hb), withReg_of_ge (Nat.not_lt.mp hb)]
    exact sameButCell_raise _ _

/-- A choice that does not look at memory. -/
theorem sameButCell_ite {c : Prop} [Decidable c] {p p' q q' : Result} (hp : SameButCell n v p q)
    (hp' : SameButCell n v p' q') : SameButCell n v (if c then p else p') (if c then q else q') := by
  split
  · exact hp
  · exact hp'

/-- A push to another cell than `n`. -/
theorem sameButCell_withPushRoom (hn : s.sp ≠ 0 → n ≠ s.pushAddr.toNat) {t u : State} {w : Byte}
    (ht : t.mem = s.mem.write s.pushAddr.toNat w)
    (hu : u.mem = (s.setCell n v).mem.write s.pushAddr.toNat w)
    (hrest : { u with mem := t.mem } = t := by rfl) :
    SameButCell n v (withPushRoom s (.next t)) (withPushRoom (s.setCell n v) (.next u)) := by
  by_cases hsp : s.sp = 0
  · rw [withPushRoom_of_eq hsp, withPushRoom_of_eq (s := s.setCell n v) hsp]
    exact sameButCell_raise _ _
  · rw [withPushRoom_of_ne hsp, withPushRoom_of_ne (s := s.setCell n v) hsp]
    refine sameButCell_next (fun m => ?_) hrest
    have hne := hn hsp
    rw [ht, hu, Memory.read_write, Memory.read_write, setCell_mem_read]
    by_cases hm : m = n
    · rw [if_pos hm, if_pos hm, if_neg (hm ▸ hne)]
    · rw [if_neg hm, if_neg hm]

/-- A pop from another cell than `n`. -/
theorem sameButCell_withPopped (hn : s.sp ≠ 255 → n ≠ s.sp.toNat) {k l : Byte → Result}
    (h : ∀ w, SameButCell n v (k w) (l w)) :
    SameButCell n v (withPopped s k) (withPopped (s.setCell n v) l) := by
  by_cases hsp : s.sp = 255
  · rw [withPopped_of_eq hsp, withPopped_of_eq (s := s.setCell n v) hsp]
    exact sameButCell_raise _ _
  · have hload : (s.setCell n v).load (s.setCell n v).sp = s.load s.sp :=
      (setCell_mem_read s n _ v).trans (if_neg (hn hsp).symm)
    rw [withPopped_of_ne hsp, withPopped_of_ne (s := s.setCell n v) hsp, hload]
    exact h _

/-- An instruction with at most one operand does the same whatever value an unused cell holds. -/
theorem exec_sameButCell {k : Mnemonic} (hk : k.operandCount < 2) (hcell : CellUnused k s n) (a b : Byte) :
    SameButCell n v (exec (assemble k a b) s) (exec (assemble k a b) (s.setCell n v)) := by
  have hmem (m : Nat) := setCell_mem_read s n m v
  cases k with
  | ldi | add | mul | cmp | and | or | xor => exact absurd hk (by decide)
  | hlt => exact sameButCell_next hmem
  | ret =>
    simp only [assemble, exec, execRet]
    exact sameButCell_withPopped hcell fun _ => sameButCell_next hmem
  | push =>
    simp only [assemble, exec, execPush]
    exact sameButCell_withReg a fun _ => sameButCell_withPushRoom hcell rfl rfl
  | pop =>
    simp only [assemble, exec, execPop]
    exact sameButCell_withReg a fun _ => sameButCell_withPopped hcell fun _ =>
      sameButCell_ite (sameButCell_raise _ _) (sameButCell_next hmem)
  | prn =>
    simp only [assemble, exec, execPrn]
    exact sameButCell_withReg a fun _ => sameButCell_next hmem
  | call =>
    simp only [assemble, exec, execCall]
    exact sameButCell_withReg a fun _ => sameButCell_withPushRoom hcell rfl rfl
  | jmp =>
    simp only [assemble, exec, execJmp]
    exact sameButCell_withReg a fun _ => sameButCell_next hmem
  | jeq =>
    simp only [assemble, exec, execJeq]
    exact sameButCell_withReg a fun _ => sameButCell_ite (sameButCell_next hmem) (sameButCell_next hmem)
  | jne =>
    simp only [assemble, exec, execJne]
    exact sameButCell_withReg a fun _ => sameButCell_ite (sameButCell_next hmem) (sameButCell_next hmem)
  | not =>
    simp only [assemble]
    rw [exec_not_of_onesComplement hcell, exec_not_of_onesComplement (s := s.setCell n v) hcell]
    exact sameButCell_withReg a fun _ => sameButCell_next hmem

end

/-- The fetched instruction is the same whatever value a byte behind its operands holds. -/
theorem assemble_setCell (s : State) {k : Mnemonic} {j : Nat} (hlt : k.operandCount < j) (hle : j ≤ 2)
    (v : Byte) :
    assemble k ((s.setCell (s.pc.toNat + j) v).mem.read (s.pc.toNat + 1))
        ((s.setCell (s.pc.toNat + j) v).mem.read (s.pc.toNat + 2)) =
      assemble k (s.mem.read (s.pc.toNat + 1)) (s.mem.read (s.pc.toNat + 2)) := by
  by_cases hj : j = 1
  · exact assemble_of_no_operand (by omega) _ _ _ _
  · rw [setCell_mem_read, if_neg (by omega)]
    exact assemble_of_one_operand (by omega) _ _ _

/-- Settles O37: both steps run the same instruction (`assemble_setCell`), which does the same in both states
(`exec_sameButCell`). -/
theorem unusedFetchedByteHasNoEffect : Obligations.UnusedFetchedByteHasNoEffect := by
  unfold Obligations.UnusedFetchedByteHasNoEffect
  intro s t k j v hpc hrow hlt hle hcell h
  have hrun := (step_next h).1
  have hunused : CellUnused k s (s.pc.toNat + j) := by
    cases k <;> exact hcell
  have hk := OpcodeMap.byteOf_of_mnemonicOf hrow
  have hop : (s.setCell (s.pc.toNat + j) v).mem.read s.pc.toNat = s.mem.read s.pc.toNat := by
    rw [setCell_mem_read, if_neg (by omega)]
  have hstep := step_of_row (s := s.setCell (s.pc.toNat + j) v) hrun hpc (hk.trans hop.symm)
  obtain ⟨t', u, ht', hu, hrest, hmem⟩ := exec_sameButCell (v := v) (by omega) hunused
    (s.mem.read (s.pc.toNat + 1)) (s.mem.read (s.pc.toNat + 2))
  obtain rfl : t' = t := Host.Outcome.next.inj (ht'.symm.trans ((step_of_row hrun hpc hk).symm.trans h))
  refine ⟨u, hstep.trans ?_, hrest, hmem⟩
  rw [← hu, ← assemble_setCell s hlt hle v]
  rfl

end Sys2Proof.Machine
end

section
/-! Booting from an image and from program text (spec/70_reset_and_hazards.md R182, spec/60_exceptions.md
R173). -/

namespace Sys2Proof.Machine

/-! What the Loader leaves in memory -/

/-- An image of at most 256 bytes, loaded after reset: its bytes from address 0 and 0 above it. -/
theorem read_loadBytes_resetInput (s : State) {bytes : List Byte} (h : bytes.length ≤ 256) (n : Nat) :
    (s.resetInput.loadBytes 0 bytes).mem.read n = bytes.getD n 0 := by
  rw [State.loadBytes_read rfl 0 bytes (by omega)]
  split
  · rfl
  · rw [List.getD_eq_default _ _ (by omega)]
    rfl

/-- Loading an image after reset changes memory only. -/
theorem loadBytes_resetInput (s : State) (bytes : List Byte) :
    s.resetInput.loadBytes 0 bytes =
      { s.resetInput with mem := (s.resetInput.loadBytes 0 bytes).mem } :=
  State.loadBytes_frame rfl 0 bytes

theorem wf_loadBytes_resetInput (s : State) (bytes : List Byte) :
    (s.resetInput.loadBytes 0 bytes).mem.wf :=
  State.loadBytes_wf (s := s.resetInput) State.reset_mem_wf 0 bytes

/-- The state that `start` makes of a loaded image. -/
theorem startInput_loadBytes_resetInput (s : State) (bytes : List Byte) :
    (s.resetInput.loadBytes 0 bytes).startInput =
      { s.resetInput with mem := (s.resetInput.loadBytes 0 bytes).mem, status := .running } := by
  rw [loadBytes_resetInput]
  rfl

/-- Settles O47: a short image is loaded and started (`startInput_loadBytes_resetInput`), a longer one is a
LoadError. -/
theorem bootGivesLaunchState : Obligations.BootGivesLaunchState := by
  unfold Obligations.BootGivesLaunchState
  intro written s image
  rcases bootImage_cases written s image with ⟨hle, hboot⟩ | ⟨hgt, hboot⟩
  · refine ⟨fun _ => ⟨_, hboot, ?_⟩, fun hgt => absurd hle hgt.not_ge⟩
    rw [startInput_loadBytes_resetInput]
    exact ⟨read_loadBytes_resetInput s hle, wf_loadBytes_resetInput s image, reset_reg, rfl, rfl, rfl, rfl,
      rfl, rfl⟩
  · exact ⟨fun hle => absurd hle hgt.not_ge, fun _ => hboot ▸ rfl⟩

/-! After a LoadError -/

/-- How booting from text can end: started, or in a LoadError with a leading part of the bytes written. -/
theorem bootProgram_some_cases (written : Nat) (s : State) (lines : List Line) :
    ((bootProgram written s (some lines)).error = none ∧
        (bootProgram written s (some lines)).state.status = .running) ∨
      ((bootProgram written s (some lines)).error ≠ none ∧
        (bootProgram written s (some lines)).state =
          s.resetInput.loadBytes 0 (((parsedBytes lines).take 256).take written)) := by
  rcases bootProgram_cases written s lines with ⟨-, -, h⟩ | ⟨-, -, h⟩ | ⟨-, h⟩
  · rw [h, startInput_loadBytes_resetInput]
    exact .inl ⟨rfl, rfl⟩
  · rw [h]
    exact .inr ⟨Option.some_ne_none _, rfl⟩
  · rw [h]
    exact .inr ⟨Option.some_ne_none _, rfl⟩

/-- How booting can end, a missing file among the LoadErrors: there no byte is written. -/
theorem bootProgram_ends (written : Nat) (s : State) (text : Option (List Line)) :
    ((bootProgram written s text).error = none ∧
        (bootProgram written s text).state.status = .running) ∨
      ((bootProgram written s text).error ≠ none ∧
        ∃ bytes, (bootProgram written s text).state = s.resetInput.loadBytes 0 bytes) := by
  cases text with
  | none => exact .inr ⟨Option.some_ne_none _, [], rfl⟩
  | some lines => exact (bootProgram_some_cases written s lines).imp_right (And.imp_right fun h => ⟨_, h⟩)

/-- A leading part of the bytes, at most 256 of them, loaded after reset. -/
theorem read_loadBytes_take (s : State) (written : Nat) (bytes : List Byte) (n : Nat) :
    (s.resetInput.loadBytes 0 ((bytes.take 256).take written)).mem.read n =
      if n < written ∧ n < 256 then bytes.getD n 0 else 0 := by
  have hlen : ((bytes.take 256).take written).length ≤ 256 :=
    (List.length_take_le' ..).trans (List.length_take_le ..)
  rw [read_loadBytes_resetInput s hlen, List.take_take, List.getD_eq_getElem?_getD, List.getElem?_take]
  simp only [lt_min_iff]
  split
  · exact (List.getD_eq_getElem?_getD ..).symm
  · rfl

/-- The status after loading is that of reset. -/
theorem status_loadBytes_resetInput (s : State) (bytes : List Byte) :
    (s.resetInput.loadBytes 0 bytes).status = .idle := by
  rw [loadBytes_resetInput]
  rfl

/-- Settles O53: a LoadError leaves what loading some bytes after reset leaves (`bootProgram_ends`), and for
text these are its leading bytes (`bootProgram_some_cases`). -/
theorem loadErrorLeavesCoreIdle : Obligations.LoadErrorLeavesCoreIdle := by
  unfold Obligations.LoadErrorLeavesCoreIdle
  refine fun written s => ⟨rfl, fun n => rfl, fun text herr => ?_, fun lines herr n => ?_, fun text => ?_⟩
  · rcases bootProgram_ends written s text with ⟨hok, -⟩ | ⟨-, bytes, hstate⟩
    · exact absurd hok herr
    · rw [hstate]
      have hidle := status_loadBytes_resetInput s bytes
      exact ⟨hidle, step_ne_next_of_not_running (by rw [hidle]; decide), loadBytes_resetInput s bytes,
        wf_loadBytes_resetInput s bytes⟩
  · rcases bootProgram_some_cases written s lines with ⟨hok, -⟩ | ⟨-, hstate⟩
    · exact absurd hok herr
    · rw [hstate]
      exact read_loadBytes_take s written (parsedBytes lines) n
  · rcases bootProgram_ends written s text with ⟨hok, hrun⟩ | ⟨herr, bytes, hstate⟩
    · exact iff_of_true hok hrun
    · exact iff_of_false herr (by rw [hstate, status_loadBytes_resetInput]; decide)

end Sys2Proof.Machine
end

section
/-! The lines of program text (spec/20_memory.md R47, spec/30_encoding.md R69; log 12): a line is read as
the part before its comment, and that part as the literal between its blanks. -/

namespace Sys2Proof.Machine

/-- The value of binary digits, most significant first. -/
def binaryValue (digits : Line) : Nat := digits.foldl (fun n c => 2 * n + if c = '1' then 1 else 0) 0

/-! The part of a line before its comment -/

/-- Every line is a part without `#`, then nothing or a comment. -/
theorem comment_split (l : Line) :
    ∃ v comment : Line, l = v ++ comment ∧ '#' ∉ v ∧ (comment = [] ∨ comment.head? = some '#') := by
  refine ⟨l.takeWhile (· ≠ '#'), l.dropWhile (· ≠ '#'), List.takeWhile_append_dropWhile.symm, ?_, ?_⟩
  · intro hmem
    simpa using List.mem_takeWhile_imp hmem
  · cases hd : l.dropWhile (· ≠ '#') with
    | nil => exact .inl rfl
    | cons c rest =>
      have hc := List.head?_dropWhile_not (· ≠ '#') l
      rw [hd] at hc
      exact .inr (by simpa using hc)

section Value
variable {v comment : Line} (hv : '#' ∉ v) (hne : v ≠ [])
  (hcomment : comment = [] ∨ comment.head? = some '#')
include hv hne

theorem head?_ne_hash : (v ++ comment).head? ≠ some '#' := by
  cases v with
  | nil => exact absurd rfl hne
  | cons c rest =>
    rintro ⟨⟩
    exact hv List.mem_cons_self

include hcomment

/-- A line whose part before the comment is a literal. -/
theorem parseLine_of_literal {c : Char} (hc : c ∈ v ++ comment) (hblank : isBlank c = false) {n : Nat}
    (hn : binaryLiteral (trimLine v) = some n) :
    parseLine (v ++ comment) =
      if n ≤ 255 then .ok (some (BitVec.ofNat 8 n)) else .error .malformedLine := by
  rw [parseLine_of_value (head?_ne_hash hv hne) hc hblank, takeWhile_comment hv hcomment, hn]

theorem parseLine_of_no_literal {c : Char} (hc : c ∈ v ++ comment) (hblank : isBlank c = false)
    (hn : binaryLiteral (trimLine v) = none) : parseLine (v ++ comment) = .error .malformedLine := by
  rw [parseLine_of_value (head?_ne_hash hv hne) hc hblank, takeWhile_comment hv hcomment, hn]

end Value

/-! A literal between blanks -/

theorem trimLine_of_digits {before digits behind : Line} (hbefore : BlankLine before)
    (hdigits : DigitLine digits) (hne : digits ≠ []) (hbehind : BlankLine behind) :
    trimLine (before ++ digits ++ behind) = digits :=
  trimLine_of_ends hbefore hbehind (fun c hc => hdigits.not_blank c (List.mem_of_head? hc))
    (fun c hc => hdigits.not_blank c (List.mem_of_getLast? hc)) hne

/-- Digits between blanks and before a comment are their value, up to 255. -/
theorem parseLine_of_digits {before digits behind comment : Line} (hbefore : BlankLine before)
    (hdigits : DigitLine digits) (hne : digits ≠ []) (hbehind : BlankLine behind)
    (hcomment : comment = [] ∨ comment.head? = some '#') :
    parseLine (before ++ digits ++ behind ++ comment) =
      if binaryValue digits ≤ 255 then .ok (some (BitVec.ofNat 8 (binaryValue digits)))
      else .error .malformedLine := by
  obtain ⟨c, hc⟩ := List.exists_mem_of_ne_nil digits hne
  have hmem : c ∈ before ++ digits ++ behind :=
    List.mem_append_left _ (List.mem_append_right _ hc)
  have hhash : '#' ∉ before ++ digits ++ behind := by
    simp [hbefore.no_hash, hdigits.no_hash, hbehind.no_hash]
  apply parseLine_of_literal hhash (List.ne_nil_of_mem hmem) hcomment (List.mem_append_left _ hmem)
    (hdigits.not_blank c hc)
  rw [trimLine_of_digits hbefore hdigits hne hbehind]
  exact binaryLiteral_of_digits hdigits hne

/-! Malformed lines -/

/-- A character that is no digit, no blank and no `#` makes a line malformed. -/
theorem parseLine_of_bad_char {before : Line} {c : Char} (after : Line) (hbefore : '#' ∉ before)
    (hc : c ∉ ['0', '1', ' ', '\t', '\r', '#']) :
    parseLine (before ++ c :: after) = .error .malformedLine := by
  simp only [List.mem_cons, List.not_mem_nil, or_false, not_or] at hc
  obtain ⟨h0, h1, hspace, htab, hcr, hhash⟩ := hc
  have hblank : isBlank c = false := by simp [isBlank, hspace, htab, hcr]
  obtain ⟨v, comment, rfl, hv, hcomment⟩ := comment_split after
  have hmem : c ∈ before ++ c :: v := by simp
  rw [show before ++ c :: (v ++ comment) = before ++ c :: v ++ comment by simp]
  exact parseLine_of_no_literal (by simp [hbefore, hv, Ne.symm hhash]) (List.ne_nil_of_mem hmem) hcomment
    (List.mem_append_left _ hmem) hblank
    (binaryLiteral_of_mem (mem_trimLine hmem hblank) ⟨h0, h1⟩)

/-- Dropping blanks stops at the first character that is none. -/
theorem dropWhile_isBlank_append (l rest : Line) {d : Char} (hd : isBlank d = false) :
    (l ++ d :: rest).dropWhile isBlank = l.dropWhile isBlank ++ d :: rest := by
  induction l with
  | nil => simp [hd]
  | cons c l ih =>
    rw [List.cons_append, List.dropWhile_cons, List.dropWhile_cons, ih]
    split <;> rfl

/-- What stands between two characters that are no blanks stays in the trimmed line. -/
theorem mem_trimLine_between (before blanks behind : Line) {c d e : Char} (hd : isBlank d = false)
    (he : isBlank e = false) (hc : c ∈ blanks) :
    c ∈ trimLine (before ++ d :: blanks ++ e :: behind) := by
  have hfront : (before ++ d :: blanks ++ e :: behind).dropWhile isBlank =
      before.dropWhile isBlank ++ d :: blanks ++ e :: behind := by
    simp [dropWhile_isBlank_append _ _ hd]
  rw [trimLine, hfront, List.reverse_append, List.reverse_cons, List.append_assoc, List.singleton_append,
    dropWhile_isBlank_append _ _ he]
  simp [hc]

/-- A blank between digits makes a line malformed. -/
theorem parseLine_of_inner_blank {before blanks : Line} {d e : Char} (after : Line)
    (hbefore : '#' ∉ before) (hd : d = '0' ∨ d = '1') (hblanks : BlankLine blanks) (hne : blanks ≠ [])
    (he : e = '0' ∨ e = '1') :
    parseLine (before ++ d :: blanks ++ e :: after) = .error .malformedLine := by
  have digit_not_blank {c : Char} (hc : c = '0' ∨ c = '1') : isBlank c = false := by
    rcases hc with rfl | rfl <;> decide
  have digit_ne_hash {c : Char} (hc : c = '0' ∨ c = '1') : '#' ≠ c := by
    rcases hc with rfl | rfl <;> decide
  obtain ⟨c, hc⟩ := List.exists_mem_of_ne_nil blanks hne
  have hdigit : c ≠ '0' ∧ c ≠ '1' := by
    rcases hblanks c hc with rfl | rfl | rfl <;> decide
  obtain ⟨v, comment, rfl, hv, hcomment⟩ := comment_split after
  have hmem : d ∈ before ++ d :: blanks ++ e :: v := by simp
  rw [show before ++ d :: blanks ++ e :: (v ++ comment) = before ++ d :: blanks ++ e :: v ++ comment by simp]
  exact parseLine_of_no_literal
    (by simp [hbefore, hblanks.no_hash, hv, digit_ne_hash hd, digit_ne_hash he])
    (List.ne_nil_of_mem hmem) hcomment (List.mem_append_left _ hmem) (digit_not_blank hd)
    (binaryLiteral_of_mem (mem_trimLine_between before blanks v (digit_not_blank hd) (digit_not_blank he) hc)
      hdigit)

theorem trimLine_of_blank {l : Line} (h : BlankLine l) : trimLine l = [] := by
  rw [trimLine, List.dropWhile_eq_nil_iff.mpr h.isBlank]
  rfl

/-- Blanks before a comment are no value. -/
theorem parseLine_of_blank_value {blanks : Line} (comment : Line) (hblanks : BlankLine blanks)
    (hne : blanks ≠ []) : parseLine (blanks ++ '#' :: comment) = .error .malformedLine :=
  parseLine_of_no_literal hblanks.no_hash hne (.inr rfl) (List.mem_append_right _ List.mem_cons_self)
    (by decide) (by rw [trimLine_of_blank hblanks]; rfl)

/-! The causes of a LoadError -/

theorem parseProgram_error_iff (lines : List Line) :
    parseProgram lines = .error .malformedLine ↔ ∃ l ∈ lines, parseLine l = .error .malformedLine := by
  rcases parseProgram_cases lines with ⟨herr, hline⟩ | ⟨⟨bytes, hok⟩, hlines⟩
  · exact iff_of_true herr hline
  · refine iff_of_false (by simp [hok]) ?_
    rintro ⟨l, hl, hbad⟩
    exact hlines l hl hbad

theorem bootProgram_error_of_ok {lines : List Line} {bytes : List Byte} (h : parseProgram lines = .ok bytes)
    (written : Nat) (s : State) :
    (bootProgram written s (some lines)).error =
      if 256 < bytes.length then some .imageTooLong else none := by
  have hboot : bootProgram written s (some lines) = bootImage written s bytes := by
    simp [bootProgram, h]
  rw [hboot]
  rcases bootImage_cases written s bytes with ⟨hle, himage⟩ | ⟨hgt, himage⟩
  · rw [himage, if_neg hle.not_gt]
  · rw [himage, if_pos hgt]
    rfl

theorem bootProgram_error_of_error {lines : List Line} {e : LoadError} (h : parseProgram lines = .error e)
    (written : Nat) (s : State) : (bootProgram written s (some lines)).error = some e := by
  simp [bootProgram, h, State.failLoad]

/-- Settles O50: the error of a boot is that of the text, and `parseProgram_error_iff` finds its line; each
shape of line by its lemma. -/
theorem loadErrorHasThreeCauses : Obligations.LoadErrorHasThreeCauses := by
  unfold Obligations.LoadErrorHasThreeCauses
  refine ⟨fun written s => ⟨rfl, fun lines => ⟨?_, fun bytes hok => ?_, ?_⟩⟩,
    fun before digits behind comment hb hd hne he hc => parseLine_of_digits hb hd hne he hc,
    fun before after c hb hc => parseLine_of_bad_char after hb hc,
    fun before blanks after d e hb hd hblanks hne he => parseLine_of_inner_blank after hb hd hblanks hne he,
    fun blanks comment hb hne => parseLine_of_blank_value comment hb hne⟩
  · rw [← parseProgram_error_iff]
    rcases parseProgram_cases lines with ⟨herr, -⟩ | ⟨⟨bytes, hok⟩, -⟩
    · exact iff_of_true (bootProgram_error_of_error herr written s) herr
    · rw [bootProgram_error_of_ok hok, hok]
      split <;> simp
  · rw [bootProgram_error_of_ok hok]
    simp
  · rcases parseProgram_cases lines with ⟨herr, -⟩ | ⟨⟨bytes, hok⟩, -⟩
    · rw [bootProgram_error_of_error herr]
      decide
    · rw [bootProgram_error_of_ok hok]
      split <;> decide

/-! The line of a byte -/

theorem digitLine_binaryLine (b : Byte) : DigitLine (binaryLine b) := by
  intro c hc
  obtain ⟨i, -, rfl⟩ := List.mem_map.mp hc
  split
  · exact .inr rfl
  · exact .inl rfl

theorem binaryLine_ne_nil (b : Byte) : binaryLine b ≠ [] := by
  simp [binaryLine]

/-- The digits of the low `n` bits, read after a value, shift it and add those bits. -/
theorem foldl_bits (b : Byte) (n acc : Nat) :
    ((List.range n).reverse.map fun i => if b.getLsbD i then '1' else '0').foldl
      (fun n c => 2 * n + if c = '1' then 1 else 0) acc = acc * 2 ^ n + b.toNat % 2 ^ n := by
  induction n generalizing acc with
  | zero => simp [Nat.mod_one]
  | succ n ih =>
    rw [List.range_succ, List.reverse_append, List.reverse_singleton, List.singleton_append, List.map_cons,
      List.foldl_cons, ih, Nat.mod_pow_succ, ← BitVec.testBit_toNat, Nat.testBit_eq_decide_div_mod_eq]
    rcases Nat.mod_two_eq_zero_or_one (b.toNat / 2 ^ n) with hbit | hbit
    · simp [hbit]
      ring
    · simp [hbit]
      ring

theorem binaryValue_binaryLine (b : Byte) : binaryValue (binaryLine b) = b.toNat := by
  rw [binaryValue, binaryLine, foldl_bits, Nat.zero_mul, Nat.zero_add, Nat.mod_eq_of_lt b.isLt]

/-- The line of a byte is that byte, with blanks behind it and a comment or none. -/
theorem parseLine_binaryLine_append (b : Byte) {behind comment : Line} (hbehind : BlankLine behind)
    (hcomment : comment = [] ∨ comment.head? = some '#') :
    parseLine (binaryLine b ++ behind ++ comment) = .ok (some b) := by
  have h := parseLine_of_digits (before := []) (by simp [BlankLine]) (digitLine_binaryLine b)
    (binaryLine_ne_nil b) hbehind hcomment
  rw [binaryValue_binaryLine, if_pos (by omega), BitVec.ofNat_toNat, BitVec.setWidth_eq] at h
  exact h

theorem parseLine_binaryLine (b : Byte) : parseLine (binaryLine b) = .ok (some b) := by
  simpa using parseLine_binaryLine_append b (behind := []) (comment := []) (by simp [BlankLine]) (.inl rfl)

/-! Lines without a byte -/

theorem parseProgram_cons_of_none {l : Line} (h : parseLine l = .ok none) (below : List Line) :
    parseProgram (l :: below) = parseProgram below := by
  rw [parseProgram, h]
  cases parseProgram below <;> rfl

theorem parseProgram_append_of_none {l : Line} (h : parseLine l = .ok none) (above below : List Line) :
    parseProgram (above ++ l :: below) = parseProgram (above ++ below) := by
  induction above with
  | nil => exact parseProgram_cons_of_none h below
  | cons a above ih => rw [List.cons_append, List.cons_append, parseProgram, parseProgram, ih]

theorem parseProgram_binaryLines (bytes : List Byte) : parseProgram (bytes.map binaryLine) = .ok bytes := by
  induction bytes with
  | nil => rfl
  | cons b bytes ih => rw [List.map_cons, parseProgram, parseLine_binaryLine, ih]

/-- Settles O51: the value of a byte's digits is the byte (`binaryValue_binaryLine`); a line without a byte
adds nothing to a text (`parseProgram_append_of_none`). -/
theorem binaryLineIsItsByte : Obligations.BinaryLineIsItsByte := by
  unfold Obligations.BinaryLineIsItsByte
  refine ⟨fun b comment => ⟨parseLine_binaryLine b, ?_, ?_⟩, fun comment => parseLine_of_comment rfl,
    fun l hl => parseLine_of_blank hl, parseProgram_binaryLines, fun l above below hl =>
      parseProgram_append_of_none (hl.elim parseLine_of_blank parseLine_of_comment) above below⟩
  · simpa using parseLine_binaryLine_append b (behind := []) (comment := '#' :: comment) (by simp [BlankLine])
      (.inr rfl)
  · simpa using parseLine_binaryLine_append b (behind := [' ']) (comment := '#' :: comment)
      (by simp [BlankLine]) (.inr rfl)

end Sys2Proof.Machine
end
